-- ==== Sys2Proof/Word.lean ====
section
/-! DEFINITION. The bit-vector types of QOI-DEC: a byte (a channel, an opcode byte, a memory byte) and the
32-bit header dimension (00_scope.md R7, R8). -/

namespace Sys2Proof

/-- A byte of IN or OUT, or one 8-bit channel of a pixel (00_scope.md R7). -/
abbrev Byte := BitVec 8

/-- An unsigned 32-bit image dimension (00_scope.md R7). -/
abbrev Dim := BitVec 32

end Sys2Proof
end

