-- ==== Sys2Proof/Config.lean ====
section
/-! DEFINITION. What an implementation of QOI-DEC fixes (00_scope.md R6), and the values the spec leaves open. -/

namespace Sys2Proof

/-- The two parameters of R6: the capacity in bytes of the input memory and of the output memory. A state carries
them as data and no step changes them, so a claim about every state is a claim about every parameter value (log 1). -/
structure Params where
  /-- `P_IN_MAX`, the largest input length. -/
  pInMax : Nat
  /-- `P_OUT_CAP`, the capacity of the output memory. -/
  pOutCap : Nat
deriving DecidableEq, Repr

/-- R6: `P_IN_MAX` is at least 15 and `P_OUT_CAP` at least 3. -/
def Params.wf (q : Params) : Bool :=
  decide (15 ≤ q.pInMax) && decide (3 ≤ q.pOutCap)

/-- The least width in bits of L, IPTR and ERR_OFF: ceil(log2(P_IN_MAX + 1)) (R6). -/
def Params.offsetWidth (q : Params) : Nat :=
  Nat.clog 2 (q.pInMax + 1)

/-- The least width in bits of OPIX: ceil(log2(floor(P_OUT_CAP / 3) + 1)) (R6). -/
def Params.pixelWidth (q : Params) : Nat :=
  Nat.clog 2 (q.pOutCap / 3 + 1)

/-- The parameters of `State.reset`. DESIGN CHOICE (log 1): 95_test_vectors.md section 0 uses P_OUT_CAP = 1,000,000;
the spec names no figure for P_IN_MAX. -/
def Params.chosen : Params := { pInMax := 16777216, pOutCap := 1000000 }

/-- FREE VALUE (log 13): what the host's `n`-th read of a `width`-bit register returns in a phase where the
register means nothing (10_state.md R35; 93_implementation_defined.md U1). -/
opaque Config.unspecifiedBits (width n : Nat) : BitVec width

/-- FREE VALUE (log 13): the same for ERR_OFF, whose width is an implementation's (R31). -/
opaque Config.unspecifiedOffset (n : Nat) : Nat

/-- FREE VALUE (log 13): what the host's `n`-th read of OUT returns at an address that holds no result
(70_reset_and_hazards.md R235; 93_implementation_defined.md U2). -/
opaque Config.unspecifiedOut (n a : Nat) : Byte

end Sys2Proof
end

