-- ==== Sys2Proof/Syntax.lean ====
section
/-! DEFINITION. The opcode units of QOI-DEC as syntax: one constructor per row of spec/opcode_table.json
(00_scope.md R2). Operands are those of 30_encoding.md R78, with every bias already taken off. -/

namespace Sys2Proof

/-- An opcode unit: the opcode byte and its extra bytes, decoded (30_encoding.md R71 to R78). -/
inductive Instr
  /-- RGB literal (42_literals.md R150). -/
  | rgb (r g b : Byte)
  /-- RGBA literal (42_literals.md R151). -/
  | rgba (r g b a : Byte)
  /-- Colour-cache lookup (43_index.md R160); the field has six bits, so no other index can be written
  (93_implementation_defined.md U3). -/
  | index (idx : Fin 64)
  /-- Small difference from PREV (44_delta.md R170). -/
  | diff (dr dg db : Int)
  /-- Green-based difference from PREV: dg, dr - dg and db - dg (44_delta.md R171). -/
  | luma (dg drdg dbdg : Int)
  /-- `n` repeats of PREV (45_run.md R180). -/
  | run (n : Nat)
deriving DecidableEq, Repr

end Sys2Proof
end

