-- ==== Sys2Proof/WellFormed.lean ====
section
/-! DEFINITION. Which opcode units have an encoding: every operand in the range of 30_encoding.md R78 and R82.
An operand outside its range is an assembly error, not an encoding (R82). -/

namespace Sys2Proof

/-- `x` lies in `lo..hi`, both ends included. -/
def inRange (lo hi x : Int) : Bool :=
  decide (lo ≤ x) && decide (x ≤ hi)

/-- The operand ranges of R78: DIFF deltas -2..1, LUMA dg -32..31 and drdg, dbdg -8..7, RUN lengths 1..62.
A literal's channels and an INDEX field have no other values than their types hold. -/
def Instr.wf : Instr → Bool
  | .rgb _ _ _ => true
  | .rgba _ _ _ _ => true
  | .index _ => true
  | .diff dr dg db => inRange (-2) 1 dr && inRange (-2) 1 dg && inRange (-2) 1 db
  | .luma dg drdg dbdg => inRange (-32) 31 dg && inRange (-8) 7 drdg && inRange (-8) 7 dbdg
  | .run n => inRange 1 62 n

end Sys2Proof
end

