-- ==== Sys2Proof/Decode.lean ====
section
/-! DEFINITION. Classification, decoding and encoding of opcode units (30_encoding.md R71 to R81), the header's
byte layout (R84), and the assembler syntax of R82 and R83. -/

namespace Sys2Proof

/-- The kind of an opcode unit (R71). -/
inductive Kind
  | rgb | rgba | index | diff | luma | run
deriving DecidableEq, Repr

/-- `b[hi:lo]` read as an unsigned number (00_scope.md R8). -/
def field (hi lo : Nat) (b : Byte) : Nat :=
  (b.extractLsb hi lo).toNat

/-- A biased field as a signed number (00_scope.md R9): the exact difference, in the integers. -/
def unbias (bias raw : Nat) : Int :=
  (raw : Int) - (bias : Int)

/-- R71: the two literal values are checked before the two top bits. -/
def classify (b : Byte) : Kind :=
  if b = 0xFE then .rgb
  else if b = 0xFF then .rgba
  else if field 7 6 b = 0b00 then .index
  else if field 7 6 b = 0b01 then .diff
  else if field 7 6 b = 0b10 then .luma
  else .run

/-- R79: the length in bytes of a unit, from its kind alone. -/
def unitLen : Kind → Nat
  | .rgb => 4
  | .rgba => 5
  | .index => 1
  | .diff => 1
  | .luma => 2
  | .run => 1

/-- The kind of a decoded unit. -/
def Instr.kind : Instr → Kind
  | .rgb _ _ _ => .rgb
  | .rgba _ _ _ _ => .rgba
  | .index _ => .index
  | .diff _ _ _ => .diff
  | .luma _ _ _ => .luma
  | .run _ => .run

/-- Why a byte list starts with no whole unit. No byte value is a reason (R80). -/
inductive Reject
  /-- There is no opcode byte. -/
  | noOpcodeByte
  /-- The opcode byte's extra bytes are not all there. -/
  | missingExtraBytes (k : Kind)
deriving DecidableEq, Repr

/-- The first unit of a byte list and the bytes after it (R72 to R78, R81). The DIFF field positions are the
spec's own decision D20 (log 12). -/
def decode : List Byte → Except Reject (Instr × List Byte)
  | [] => .error .noOpcodeByte
  | b :: rest =>
    match classify b, rest with
    | .rgb, r :: g :: bl :: more => .ok (.rgb r g bl, more)
    | .rgb, _ => .error (.missingExtraBytes .rgb)
    | .rgba, r :: g :: bl :: a :: more => .ok (.rgba r g bl a, more)
    | .rgba, _ => .error (.missingExtraBytes .rgba)
    | .index, more => .ok (.index (Fin.ofNat 64 (field 5 0 b)), more)
    | .diff, more =>
      .ok (.diff (unbias 2 (field 5 4 b)) (unbias 2 (field 3 2 b)) (unbias 2 (field 1 0 b)), more)
    | .luma, b1 :: more =>
      .ok (.luma (unbias 32 (field 5 0 b)) (unbias 8 (field 7 4 b1)) (unbias 8 (field 3 0 b1)), more)
    | .luma, [] => .error (.missingExtraBytes .luma)
    | .run, more => .ok (.run (field 5 0 b + 1), more)

/-- A signed operand with its bias put back, as the low bits of a byte (R82). -/
def rebias (bias : Nat) (x : Int) : Byte :=
  BitVec.ofInt 8 (x + (bias : Int))

/-- The bytes of a unit (R82's table). -/
def encode : Instr → List Byte
  | .rgb r g b => [0xFE, r, g, b]
  | .rgba r g b a => [0xFF, r, g, b, a]
  | .index idx => [BitVec.ofNat 8 idx.val]
  | .diff dr dg db => [0x40 ||| (rebias 2 dr <<< 4) ||| (rebias 2 dg <<< 2) ||| rebias 2 db]
  | .luma dg drdg dbdg => [0x80 ||| rebias 32 dg, (rebias 8 drdg <<< 4) ||| rebias 8 dbdg]
  | .run n => [0xC0 ||| BitVec.ofNat 8 (n - 1)]

/-- The four magic bytes `q`, `o`, `i`, `f` (R84). -/
def magic : List Byte := [0x71, 0x6F, 0x69, 0x66]

/-- A 32-bit dimension as four bytes, the most significant first (20_memory.md R53). -/
def dimBytes (v : Dim) : List Byte :=
  [v.extractLsb' 24 8, v.extractLsb' 16 8, v.extractLsb' 8 8, v.extractLsb' 0 8]

/-- The 14 header bytes (R84). -/
def serializeHeader (w h : Dim) (c cs : Byte) : List Byte :=
  magic ++ dimBytes w ++ dimBytes h ++ [c, cs]

/-- A line of the assembler syntax: a unit (R82), or one of the directives HEADER and BYTES (R83). -/
inductive AsmLine
  | unit (i : Instr)
  | header (w h : Dim) (c cs : Byte)
  | bytes (bs : List Byte)
deriving DecidableEq, Repr

/-- The bytes a line emits; an operand outside its range is an assembly error (R82). -/
def AsmLine.assemble : AsmLine → Option (List Byte)
  | .unit i => if i.wf then some (encode i) else none
  | .header w h c cs => some (serializeHeader w h c cs)
  | .bytes bs => some bs

/-- The bytes of a whole text; one bad line and there are none. -/
def assemble : List AsmLine → Option (List Byte)
  | [] => some []
  | x :: xs =>
    match x.assemble, assemble xs with
    | some b, some bs => some (b ++ bs)
    | _, _ => none

/-- Operands in decimal, separated by commas (R82). -/
def operandText : List Int → String
  | [] => ""
  | [x] => toString x
  | x :: xs => toString x ++ ", " ++ operandText xs

/-- A line's text (R82, R83), every operand in decimal. -/
def AsmLine.text : AsmLine → String
  | .unit (.rgb r g b) => "RGB " ++ operandText [r.toNat, g.toNat, b.toNat]
  | .unit (.rgba r g b a) => "RGBA " ++ operandText [r.toNat, g.toNat, b.toNat, a.toNat]
  | .unit (.index idx) => "INDEX " ++ operandText [idx.val]
  | .unit (.diff dr dg db) => "DIFF " ++ operandText [dr, dg, db]
  | .unit (.luma dg drdg dbdg) => "LUMA " ++ operandText [dg, drdg, dbdg]
  | .unit (.run n) => "RUN " ++ operandText [n]
  | .header w h c cs => "HEADER " ++ operandText [w.toNat, h.toNat, c.toNat, cs.toNat]
  | .bytes bs => "BYTES " ++ operandText (bs.map fun b => (b.toNat : Int))

/-- The longest unit, an RGBA literal (R79). -/
def longestUnit : Nat := 5

/-- The bytes of a number whose bit 0 is the least significant bit of the first byte, cut to `nbits` bits and
filled with zero bytes up to the longest unit (log 8). -/
def wordBytes (nbits w : Nat) : List Byte :=
  (List.range longestUnit).map fun i => BitVec.ofNat 8 (w % 2 ^ nbits / 256 ^ i)

/-- The instruction the decoder reads from a unit given as one number. -/
def decodeTableWord (nbits w : Nat) : Option Instr :=
  match decode (wordBytes nbits w) with
  | .ok (i, _) => some i
  | .error _ => none

end Sys2Proof
end

