-- ==== Sys2Proof/Machine/State.lean ====
section
/-! DEFINITION. The state of one QOI-DEC instance as plain data (10_state.md R20), the host's moves, the reasons a
step can stop, and the state after a power-on reset (R37; 70_reset_and_hazards.md R230). -/

namespace Sys2Proof.Machine

/-- PHASE (10_state.md R21). -/
inductive Phase
  /-- No decode in progress. -/
  | idle
  /-- A decode has started; the header step is next. -/
  | header
  /-- The header is accepted; opcode steps are next. -/
  | stream
  /-- Exactly W*H pixels were emitted. -/
  | done
  /-- The decode failed. -/
  | error
deriving DecidableEq, Repr

/-- ERR_KIND (10_state.md R30). -/
inductive ErrKind
  /-- NONE. -/
  | noError
  /-- InvalidMagic (60_exceptions.md R201). -/
  | invalidMagic
  /-- UnsupportedChannelCount (R202). -/
  | unsupportedChannelCount
  /-- TruncatedInput (R203). -/
  | truncatedInput
  /-- MalformedStream (R204). -/
  | malformedStream
deriving DecidableEq, Repr

/-- A pixel: four 8-bit channels (00_scope.md R10). -/
structure Pixel where
  r : Byte
  g : Byte
  b : Byte
  a : Byte
deriving DecidableEq, Repr

/-- `ZERO`, the initial value of a cache entry (R10). -/
def Pixel.zero : Pixel := { r := 0, g := 0, b := 0, a := 0 }

/-- `PREV0`, the initial value of PREV (R10). -/
def Pixel.prev0 : Pixel := { r := 0, g := 0, b := 0, a := 255 }

/-- A byte memory: address and byte, addresses strictly rising. An address that is not listed has no value the
model knows (IN: log 3; OUT: log 4). -/
abbrev Memory := List Host.Cell

/-- What the host can do to the block at a step boundary (60_exceptions.md R214; 70_reset_and_hazards.md R232). -/
inductive HostCommand
  /-- Write bytes of the input file to IN at an offset (R232, step 2). -/
  | placeInput (offset : Nat) (bytes : List Byte)
  /-- START(len) (R231). -/
  | start (len : Nat)
  /-- ABORT (R214). -/
  | abort
  /-- RESET (R230). -/
  | reset
deriving DecidableEq, Repr

/-- One entry of the host's schedule (log 5). -/
inductive HostMove
  /-- The host does nothing at this boundary: the block takes its step. -/
  | letRun
  /-- The host issues a command at this boundary. -/
  | command (k : HostCommand)
deriving DecidableEq, Repr

/-- Why the model stops with a fault. No state that meets `State.Inv` raises one. -/
inductive Fault
  /-- `MemRead(a, n)` with a + n > L (20_memory.md R51 asks for a model fault). Raised by `memRead` and `inByte`.
  Safe: the model stops, and no rule can issue such a read. -/
  | inReadPastEnd (a n : Nat)
  /-- A read of an IN byte that the host never placed (70_reset_and_hazards.md R233 (d) broken). Raised by
  `memRead` and `inByte`. Safe: the model stops where the hardware would go on with a byte no rule gives. -/
  | inByteNotPlaced (a : Nat)
  /-- `MemWrite(a, n, v)` with a + n > W*H*C (20_memory.md R52). Raised by `memWrite`. Safe: the model stops, and
  no rule can issue such a write. -/
  | outWritePastEnd (a n : Nat)
deriving DecidableEq, Repr

/-- Why the model refuses a step. -/
inductive Refusal
  /-- An instruction with no meaning yet. Raised by `exec` alone. Safe: nothing follows of such a step. -/
  | notModelled (mnemonic : String)
  /-- The bytes of a unit do not decode. Raised by `fetch`, never reached: every opcode byte is legal and the unit
  has its full length (30_encoding.md R80). Safe. -/
  | undecodable (r : Reject)
  /-- The host writes IN during a decode, which R233 (a) forbids. Raised by `hostCommand`. Safe: no claim
  follows of such a launch (93_implementation_defined.md U7). -/
  | inputChangedDuringDecode
  /-- The host places bytes at or past P_IN_MAX, where IN has none (R6, R50). Raised by `hostCommand`. Safe. -/
  | inputMemoryTooSmall (offset n : Nat)
  /-- START with a length over P_IN_MAX (10_state.md R32). Raised by `hostCommand`. Safe. -/
  | startLengthTooLarge (len : Nat)
  /-- START with a length the placed input does not have (R233 (d)). Raised by `hostCommand`. Safe: no claim
  follows of such a launch (U7). -/
  | startInputNotResident (len : Nat)
deriving DecidableEq, Repr

/-- The state of one instance: the twelve registers of 10_state.md R20, the two memories of 20_memory.md R50, the
parameters of 00_scope.md R6, and the host's coming moves. -/
structure State where
  /-- PHASE (R21). -/
  phase : Phase
  /-- L, the input length (R32). -/
  l : Nat
  /-- W, the image width (R22). -/
  w : Dim
  /-- H, the image height (R23). -/
  h : Dim
  /-- C, the channel count (R24). -/
  c : Byte
  /-- CS, the colorspace (R25). -/
  cs : Byte
  /-- IPTR, the input cursor and program counter (R26). -/
  iptr : Nat
  /-- OPIX, the count of pixels emitted (R27). -/
  opix : Nat
  /-- PREV, the most recently emitted pixel (R28). -/
  prev : Pixel
  /-- CACHE, the colour-cache RAM (R29). -/
  cache : Vector Pixel 64
  /-- ERR_KIND (R30). -/
  errKind : ErrKind
  /-- ERR_OFF (R31). -/
  errOff : Nat
  /-- IN, the input memory (20_memory.md R50, R51). -/
  inMem : Memory
  /-- OUT, the output memory (R50, R52). -/
  outMem : Memory
  /-- P_IN_MAX and P_OUT_CAP (00_scope.md R6; log 1). -/
  params : Params
  /-- The host's moves at the coming boundaries, the next one first (log 5). -/
  host : List HostMove
deriving DecidableEq, Repr

/-- The state after a power-on reset: every register at its "after RESET" value (10_state.md R37), nothing placed in
IN, nothing known of OUT, and a host that makes no move. -/
def State.reset : State where
  phase := .idle
  l := 0
  w := 0
  h := 0
  c := 0
  cs := 0
  iptr := 0
  opix := 0
  prev := Pixel.prev0
  cache := Vector.replicate 64 Pixel.zero
  errKind := .noError
  errOff := 0
  inMem := []
  outMem := []
  params := Params.chosen
  host := []

end Sys2Proof.Machine
end

