-- ==== Sys2Proof/Machine/Operands.lean ====
section
/-! DEFINITION. The arithmetic on operands: channel arithmetic (00_scope.md R9), the colour-cache hash
(41_stream_cycle.md R127), big-endian assembly (R11; 20_memory.md R53), the channel bytes of a pixel (R129) and its
packed cache word (10_state.md R29). -/

namespace Sys2Proof.Machine

/-- `x +8 d`: the sum in the integers, reduced modulo 256 (R9). It never saturates. -/
def chAdd (x : Byte) (d : Int) : Byte :=
  BitVec.ofInt 8 ((x.toNat : Int) + d)

/-- The sum the hash reduces, over unsigned channel values (R127). -/
def hashSum (p : Pixel) : Nat :=
  p.r.toNat * 3 + p.g.toNat * 5 + p.b.toNat * 7 + p.a.toNat * 11

/-- `hash(p)`, a cache index in 0..63 (R127). -/
def pixelHash (p : Pixel) : Fin 64 :=
  Fin.ofNat 64 (hashSum p)

/-- The bytes of a list as one number, the first the most significant (R53). -/
def bigEndian (bs : List Byte) : Nat :=
  bs.foldl (fun n b => n * 256 + b.toNat) 0

/-- `be32` of four bytes (R11). -/
def be32 (bs : List Byte) : Dim :=
  BitVec.ofNat 32 (bigEndian bs)

/-- The channel bytes in output order: r, g, b, a (R54, R129). -/
def Pixel.bytes (p : Pixel) : List Byte :=
  [p.r, p.g, p.b, p.a]

/-- A cache entry as its 32-bit word: r in [31:24], g in [23:16], b in [15:8], a in [7:0] (R29; D12). Nothing
observes the packing. -/
def Pixel.pack (p : Pixel) : BitVec 32 :=
  p.r ++ p.g ++ p.b ++ p.a

/-- The pixel a cache word holds (R29). -/
def Pixel.unpack (v : BitVec 32) : Pixel where
  r := v.extractLsb' 24 8
  g := v.extractLsb' 16 8
  b := v.extractLsb' 8 8
  a := v.extractLsb' 0 8

end Sys2Proof.Machine
end

