-- ==== Sys2Proof/Machine/Ops.lean ====
section
/-! DEFINITION. The named operations over memories and registers: byte memories, MemRead and MemWrite (00_scope.md R11),
error entry (60_exceptions.md R206) and what leaves an error (R211), the cache RAM, the output buffer writer, and the
frame every opcode unit ends with (41_stream_cycle.md R120). -/

namespace Sys2Proof.Machine

/-- Go on with the value of an outcome, or stop as it stopped. -/
def andThen {α β : Type} (o : Host.Outcome α Fault Refusal) (f : α → Host.Outcome β Fault Refusal) :
    Host.Outcome β Fault Refusal :=
  match o with
  | .next x => f x
  | .fault e => .fault e
  | .refused e => .refused e

/-- The byte at an address, if one is listed. -/
def Memory.read (m : Memory) (a : Nat) : Option Byte :=
  match m with
  | [] => none
  | (k, v) :: rest => if k = a then some v else Memory.read rest a

/-- One byte written; the addresses stay strictly rising. -/
def Memory.write (m : Memory) (a : Nat) (v : Byte) : Memory :=
  match m with
  | [] => [(a, v)]
  | (k, x) :: rest =>
    if a < k then (a, v) :: (k, x) :: rest
    else if a = k then (a, v) :: rest
    else (k, x) :: Memory.write rest a v

/-- Bytes written at rising addresses, the first at the lowest (20_memory.md R52). -/
def Memory.writeBytes (m : Memory) (a : Nat) : List Byte → Memory
  | [] => m
  | v :: vs => Memory.writeBytes (Memory.write m a v) (a + 1) vs

/-- The canonical form of a memory: addresses strictly rising. An unlisted address has no value, so no entry can
repeat one. -/
abbrev Memory.wf (m : Memory) : Prop :=
  (m.map Prod.fst).Pairwise (· < ·)

/-- Every address below `n` is listed. -/
abbrev Memory.resident (m : Memory) (n : Nat) : Prop :=
  ∀ a < n, (Memory.read m a).isSome = true

/-- W*H, the pixels the image holds (R126). -/
def State.pixelCount (s : State) : Nat :=
  s.w.toNat * s.h.toNat

/-- W*H*C, the bytes of the result, as a mathematical product (R52, R104). -/
def State.outSize (s : State) : Nat :=
  s.w.toNat * s.h.toNat * s.c.toNat

/-- `IN[a]` (R11), inside 0 .. L-1 (20_memory.md R51). -/
def inByte (a : Nat) (s : State) : Host.Outcome Byte Fault Refusal :=
  if s.l ≤ a then .fault (.inReadPastEnd a 1)
  else
    match Memory.read s.inMem a with
    | some v => .next v
    | none => .fault (.inByteNotPlaced a)

/-- The bytes at `a .. a+n-1`, in rising order, where the host placed them all. -/
def readPlaced (m : Memory) (a : Nat) : Nat → Host.Outcome (List Byte) Fault Refusal
  | 0 => .next []
  | n + 1 =>
    match Memory.read m a with
    | none => .fault (.inByteNotPlaced a)
    | some v => andThen (readPlaced m (a + 1) n) fun vs => .next (v :: vs)

/-- `MemRead(a, n)`: a read past L is a model fault (R51). -/
def memRead (a n : Nat) (s : State) : Host.Outcome (List Byte) Fault Refusal :=
  if a + n ≤ s.l then readPlaced s.inMem a n else .fault (.inReadPastEnd a n)

/-- `MemWrite(a, n, v)`: a write past W*H*C is a model fault (R52). -/
def memWrite (a : Nat) (v : List Byte) (s : State) : Host.Outcome Memory Fault Refusal :=
  if a + v.length ≤ s.outSize then .next (Memory.writeBytes s.outMem a v)
  else .fault (.outWritePastEnd a v.length)

/-- ERROR ENTRY, `raise K(off)`: ERR_KIND, ERR_OFF and PHASE, and no other write (R206). There is no vector, handler
or saved state, and no step leaves ERROR again (R207, R211). -/
def raise (k : ErrKind) (off : Nat) (s : State) : State :=
  { s with errKind := k, errOff := off, phase := .error }

/-- START's initialisation (70_reset_and_hazards.md R231). OUT is unspecified until it is written (10_state.md R37),
so nothing is listed of it (log 4). This is the only way from ERROR into a new decode (R211). -/
def startDecode (len : Nat) (s : State) : State :=
  { s with
    l := len, cache := Vector.replicate 64 Pixel.zero, prev := Pixel.prev0, iptr := 0, opix := 0,
    w := 0, h := 0, c := 0, cs := 0, errKind := .noError, errOff := 0, outMem := [], phase := .header }

/-- ABORT: PHASE to IDLE, and no other state changes (R214). -/
def abortDecode (s : State) : State :=
  { s with phase := .idle }

/-- RESET: every register at its "after RESET" value; IN unchanged, OUT unspecified (R230). The parameters are the
implementation's, and the host's moves are the host's. -/
def resetBlock (s : State) : State :=
  { State.reset with inMem := s.inMem, params := s.params, host := s.host }

/-- Bytes of the input file placed in IN (R232). -/
def placeInput (offset : Nat) (bytes : List Byte) (s : State) : State :=
  { s with inMem := Memory.writeBytes s.inMem offset bytes }

/-- A whole entry read from the cache RAM (R29). -/
def cacheRead (idx : Fin 64) (s : State) : Pixel :=
  s.cache.get idx

/-- CACHE[hash(p)] <- p (R128). -/
def cacheUpdate (p : Pixel) (s : State) : State :=
  { s with cache := s.cache.set (pixelHash p).val p (pixelHash p).isLt }

/-- What Emit leaves, given OUT after its write: the pixel count and PREV move on (R129). -/
def emitted (m : Memory) (p : Pixel) (s : State) : State :=
  { s with outMem := m, opix := s.opix + 1, prev := p }

/-- `Emit(p)`, the output buffer writer (R129): the first C channel bytes at OPIX*C, then OPIX and PREV. With C = 3 the
alpha byte is dropped. -/
def emit (p : Pixel) (s : State) : Host.Outcome State Fault Refusal :=
  andThen (memWrite (s.opix * s.c.toNat) (p.bytes.take s.c.toNat) s) fun m =>
    .next (emitted m p s)

/-- `repeat n times: Emit(p)` (R120). -/
def emitTimes : Nat → Pixel → State → Host.Outcome State Fault Refusal
  | 0, _, s => .next s
  | n + 1, p, s => andThen (emit p s) (emitTimes n p)

/-- IPTR <- IPTR + len (R130). -/
def advance (len : Nat) (s : State) : State :=
  { s with iptr := s.iptr + len }

/-- If OPIX = W*H then PHASE <- DONE (R131). -/
def terminate (s : State) : State :=
  { s with phase := if s.opix = s.pixelCount then .done else s.phase }

/-- What every unit does with the pixel and the count its `Exec` returned (R120): the pixel-count check, the cache
write, the emits, the advance and the termination, in this order. -/
def finishUnit (k : Kind) (p : Pixel) (n : Nat) (s : State) : Host.Outcome State Fault Refusal :=
  if s.opix + n > s.pixelCount then .next (raise .malformedStream s.iptr s)
  else andThen (emitTimes n p (cacheUpdate p s)) fun t => .next (terminate (advance (unitLen k) t))

end Sys2Proof.Machine
end

