-- ==== Sys2Proof/Machine/HostCommands.lean ====
section
/-! DEFINITION. The host's commands (60_exceptions.md R214; 70_reset_and_hazards.md R230 to R233). -/

namespace Sys2Proof.Machine

/-- A command at a step boundary. START, ABORT and RESET are accepted in every phase (R214). A move that breaks a host
duty is refused: the spec has no such move (R233; 93_implementation_defined.md U7; log 6). -/
def hostCommand (k : HostCommand) (s : State) : Host.Outcome State Fault Refusal :=
  match k with
  | .placeInput offset bytes =>
    if s.phase = .header ∨ s.phase = .stream then .refused .inputChangedDuringDecode
    else if offset + bytes.length > s.params.pInMax then .refused (.inputMemoryTooSmall offset bytes.length)
    else .next (placeInput offset bytes s)
  | .start len =>
    if len > s.params.pInMax then .refused (.startLengthTooLarge len)
    else if Memory.resident s.inMem len then .next (startDecode len s)
    else .refused (.startInputNotResident len)
  | .abort => .next (abortDecode s)
  | .reset => .next (resetBlock s)

end Sys2Proof.Machine
end

