-- ==== Sys2Proof/Machine/Delta.lean ====
section
/-! DEFINITION. The delta pixel reconstructor: DIFF and LUMA (44_delta.md). -/

namespace Sys2Proof.Machine

/-- The three lanes of the reconstructor; the alpha lane is copied (R172). -/
def deltaPixel (dr dg db : Int) (p : Pixel) : Pixel :=
  { r := chAdd p.r dr, g := chAdd p.g dg, b := chAdd p.b db, a := p.a }

/-- DIFF (R170). -/
def execDiff (dr dg db : Int) (s : State) : Host.Outcome State Fault Refusal :=
  finishUnit .diff (deltaPixel dr dg db s.prev) 1 s

/-- LUMA (R171): the red and blue deltas are added in the integers and reduced once. -/
def execLuma (dg drdg dbdg : Int) (s : State) : Host.Outcome State Fault Refusal :=
  finishUnit .luma (deltaPixel (dg + drdg) dg (dg + dbdg) s.prev) 1 s

end Sys2Proof.Machine
end

