-- ==== Sys2Proof/Machine/Literals.lean ====
section
/-! DEFINITION. The literal units RGB and RGBA (42_literals.md). -/

namespace Sys2Proof.Machine

/-- `Exec_RGB`'s pixel: the literal channels with PREV's alpha, whatever C is (R150). -/
def rgbPixel (r g b : Byte) (s : State) : Pixel :=
  { r := r, g := g, b := b, a := s.prev.a }

/-- RGB (R150). -/
def execRgb (r g b : Byte) (s : State) : Host.Outcome State Fault Refusal :=
  finishUnit .rgb (rgbPixel r g b s) 1 s

/-- `Exec_RGBA`'s pixel: the four bytes verbatim; PREV is not read (R151). -/
def rgbaPixel (r g b a : Byte) : Pixel :=
  { r := r, g := g, b := b, a := a }

/-- RGBA (R151). -/
def execRgba (r g b a : Byte) (s : State) : Host.Outcome State Fault Refusal :=
  finishUnit .rgba (rgbaPixel r g b a) 1 s

end Sys2Proof.Machine
end

