-- ==== Sys2Proof/Machine/Lookup.lean ====
section
/-! DEFINITION. The colour-cache lookup INDEX (43_index.md). -/

namespace Sys2Proof.Machine

/-- INDEX (R160): the entry verbatim, all four channels, read before this step's cache write. -/
def execIndex (idx : Fin 64) (s : State) : Host.Outcome State Fault Refusal :=
  finishUnit .index (cacheRead idx s) 1 s

end Sys2Proof.Machine
end

