-- ==== Sys2Proof/Machine/Run.lean ====
section
/-! DEFINITION. The run-length expander RUN (45_run.md). -/

namespace Sys2Proof.Machine

/-- RUN (R180): PREV, `n` times, with one cache write (D10) and one pixel a repeat (R182). -/
def execRun (n : Nat) (s : State) : Host.Outcome State Fault Refusal :=
  finishUnit .run s.prev n s

end Sys2Proof.Machine
end

