-- ==== Sys2Proof/Machine/Fetch.lean ====
section
/-! DEFINITION. The first half of an opcode step: end of input, fetch, classification and the extra-byte bounds check
(41_stream_cycle.md R120 to R124); and the placing of one unit where the block fetches next. -/

namespace Sys2Proof.Machine

/-- What the fetch of a unit comes to. -/
inductive Fetched
  /-- A decoded unit. -/
  | unit (i : Instr)
  /-- An error to raise. -/
  | error (k : ErrKind) (off : Nat)
deriving DecidableEq, Repr

/-- The unit at IPTR (R120): MalformedStream(L) when no opcode byte is left (R121), TruncatedInput(IPTR) when an extra
byte is missing (R124), and no extra byte is read before that check. -/
def fetch (s : State) : Host.Outcome Fetched Fault Refusal :=
  if s.iptr = s.l then .next (.error .malformedStream s.l) else
  andThen (inByte s.iptr s) fun b =>
  if s.iptr + unitLen (classify b) > s.l then .next (.error .truncatedInput s.iptr) else
  andThen (memRead (s.iptr + 1) (unitLen (classify b) - 1) s) fun ops =>
  match decode (b :: ops) with
  | .ok (i, _) => .next (.unit i)
  | .error r => .refused (.undecodable r)

/-- A state whose next step is the unit `bytes`: a 64x1 image with C = 4 whose header was accepted and of which no pixel
is emitted yet, with the unit right after the header (log 8). PREV, CACHE, OUT and the parameters stay. -/
def placeUnit (bytes : List Byte) (s : State) : State :=
  { s with
    phase := .stream, w := 64, h := 1, c := 4, cs := 0, iptr := 14, opix := 0, l := 14 + bytes.length, host := [],
    inMem := Memory.writeBytes s.inMem 0 (serializeHeader 64 1 4 0 ++ bytes) }

end Sys2Proof.Machine
end

