-- ==== Sys2Proof/Machine/Header.lean ====
section
/-! DEFINITION. The header step (40_header.md). -/

namespace Sys2Proof.Machine

/-- The commit of R107. -/
def commitHeader (w h : Dim) (c cs : Byte) (s : State) : State :=
  { s with w := w, h := h, c := c, cs := cs, iptr := 14, phase := .stream }

/-- Checks H1 to H7 in order; the first that fails raises its error, and when all pass the step commits (R100 to
R108). Every field's bytes are bounds-checked before they are read. -/
def headerStep (s : State) : Host.Outcome State Fault Refusal :=
  if s.l < 4 then .next (raise .truncatedInput 0 s) else
  andThen (memRead 0 4 s) fun tag =>
  if tag ≠ magic then .next (raise .invalidMagic 0 s) else
  if s.l < 8 then .next (raise .truncatedInput 4 s) else
  andThen (memRead 4 4 s) fun wBytes =>
  if be32 wBytes = 0 then .next (raise .malformedStream 4 s) else
  if s.l < 12 then .next (raise .truncatedInput 8 s) else
  andThen (memRead 8 4 s) fun hBytes =>
  if be32 hBytes = 0 then .next (raise .malformedStream 8 s) else
  if s.l < 13 then .next (raise .truncatedInput 12 s) else
  andThen (inByte 12 s) fun c =>
  if c ≠ 3 ∧ c ≠ 4 then .next (raise .unsupportedChannelCount 12 s) else
  if (be32 wBytes).toNat * (be32 hBytes).toNat * c.toNat > s.params.pOutCap then
    .next (raise .malformedStream 4 s) else
  if s.l < 14 then .next (raise .truncatedInput 13 s) else
  andThen (inByte 13 s) fun cs =>
  if cs.toNat > 1 then .next (raise .malformedStream 13 s) else
  if s.l < 15 then .next (raise .truncatedInput 14 s) else
  .next (commitHeader (be32 wBytes) (be32 hBytes) c cs s)

end Sys2Proof.Machine
end

