-- ==== Sys2Proof/Machine/Stream.lean ====
section
/-! DEFINITION. The opcode step (41_stream_cycle.md R120) and what the block does in each phase. -/

namespace Sys2Proof.Machine

/-- The opcode step: raise what the fetch finds, or execute the unit (R120). -/
def streamStep (s : State) : Host.Outcome State Fault Refusal :=
  andThen (fetch s) fun x =>
  match x with
  | .unit i => exec i s
  | .error k off => .next (raise k off s)

/-- The block's own step in each phase. In IDLE, DONE and ERROR it takes none, and all state survives (R131; 60_exceptions.md
R207, R218; log 7). -/
def blockStep (s : State) : Host.Outcome State Fault Refusal :=
  match s.phase with
  | .idle => .next s
  | .header => headerStep s
  | .stream => streamStep s
  | .done => .next s
  | .error => .next s

end Sys2Proof.Machine
end

