-- ==== Sys2Proof/Machine/Step.lean ====
section
/-! DEFINITION. One step of the machine: the host's next move if it has one to make, else the block's own step (00_scope.md
R12; 60_exceptions.md R214; log 5). -/

namespace Sys2Proof.Machine

/-- At each boundary the host issues a command or lets the block step; with no move left it lets the block step. -/
def step (s : State) : Host.Outcome State Fault Refusal :=
  match s.host with
  | [] => blockStep s
  | .letRun :: rest => blockStep { s with host := rest }
  | .command k :: rest => hostCommand k { s with host := rest }

/-- `s` with the unit given as a number where the next step fetches (log 8). -/
def State.withFetchWord (s : State) (nbits w : Nat) : State :=
  placeUnit (wordBytes nbits w) s

end Sys2Proof.Machine
end

