-- ==== Sys2Proof/Machine/Flags.lean ====
section
/-! DEFINITION. QOI-DEC has no condition codes; what a step's outcome shows in is PHASE, ERR_KIND and ERR_OFF
(10_state.md R34). Their encodings (R21, R30), what the host reads of the registers and of OUT (R35), and the observation
of an ended decode (60_exceptions.md R219). -/

namespace Sys2Proof.Machine

/-- PHASE's encoding (R21; D13). -/
def Phase.code : Phase → BitVec 3
  | .idle => 0
  | .header => 1
  | .stream => 2
  | .done => 3
  | .error => 4

/-- ERR_KIND's encoding (R30; D13). -/
def ErrKind.code : ErrKind → BitVec 3
  | .noError => 0
  | .invalidMagic => 1
  | .unsupportedChannelCount => 2
  | .truncatedInput => 3
  | .malformedStream => 4

/-- The phases in which W, H, C and CS mean something (R22 to R25). -/
def Phase.imageValid (q : Phase) : Bool :=
  q == .stream || q == .done

/-- A read of PHASE, meaningful at any time (R21, R35). -/
def hostReadPhase (s : State) : BitVec 3 :=
  s.phase.code

/-- The host's `n`-th read of W; a free value outside STREAM and DONE (R22, R35; U1). -/
def hostReadW (n : Nat) (s : State) : Dim :=
  if s.phase.imageValid then s.w else Config.unspecifiedBits 32 n

/-- The same for H (R23). -/
def hostReadH (n : Nat) (s : State) : Dim :=
  if s.phase.imageValid then s.h else Config.unspecifiedBits 32 n

/-- The same for C (R24). -/
def hostReadC (n : Nat) (s : State) : Byte :=
  if s.phase.imageValid then s.c else Config.unspecifiedBits 8 n

/-- The same for CS (R25). -/
def hostReadCS (n : Nat) (s : State) : Byte :=
  if s.phase.imageValid then s.cs else Config.unspecifiedBits 8 n

/-- A read of ERR_KIND; a free value outside ERROR (R30, R35; U1). -/
def hostReadErrKind (n : Nat) (s : State) : BitVec 3 :=
  if s.phase = .error then s.errKind.code else Config.unspecifiedBits 3 n

/-- A read of ERR_OFF; a free value outside ERROR (R31, R35; U1). -/
def hostReadErrOff (n : Nat) (s : State) : Nat :=
  if s.phase = .error then s.errOff else Config.unspecifiedOffset n

/-- A read of OUT[a]: the byte written there in DONE below W*H*C, a free value anywhere else (R35; 70_reset_and_hazards.md
R235; U2). -/
def hostReadOut (n a : Nat) (s : State) : Byte :=
  match s.phase, Memory.read s.outMem a with
  | .done, some v => if a < s.outSize then v else Config.unspecifiedOut n a
  | _, _ => Config.unspecifiedOut n a

/-- What a decode returns (R219). -/
inductive Observation
  /-- DONE: `Ok(W, H, C, CS, OUT[0 .. W*H*C-1])`. -/
  | ok (w h : Dim) (c cs : Byte) (out : List Byte)
  /-- ERROR: `Err(ERR_KIND, ERR_OFF)`. -/
  | err (kind : ErrKind) (off : Nat)
deriving DecidableEq, Repr

/-- The observation, defined only at the end of a decode (R219). -/
def observe (n : Nat) (s : State) : Option Observation :=
  match s.phase with
  | .done => some (.ok s.w s.h s.c s.cs ((List.range s.outSize).map fun a => hostReadOut n a s))
  | .error => some (.err s.errKind s.errOff)
  | .idle => none
  | .header => none
  | .stream => none

end Sys2Proof.Machine
end

