-- ==== Sys2Proof/Safety.lean ====
section
/-! DEFINITION. What a good state is, and what a safe step is, in the terms the claims use. -/

namespace Sys2Proof.Machine

/-- The invariant (a) of 41_stream_cycle.md R136: every cache entry is empty or sits at its own hash. -/
def State.CacheLaw (s : State) : Prop :=
  ∀ idx : Fin 64, cacheRead idx s = Pixel.zero ∨ pixelHash (cacheRead idx s) = idx

/-- A header the header step accepts (10_state.md R22 to R25; 40_header.md R104). -/
structure State.ImageLegal (s : State) : Prop where
  width_pos : s.w ≠ 0
  height_pos : s.h ≠ 0
  channels : s.c = 3 ∨ s.c = 4
  colorspace : s.cs.toNat ≤ 1
  fits : s.outSize ≤ s.params.pOutCap

/-- The registers as START leaves them, L aside (10_state.md R37). -/
structure State.AtStart (s : State) : Prop where
  image : s.w = 0 ∧ s.h = 0 ∧ s.c = 0 ∧ s.cs = 0
  cursors : s.iptr = 0 ∧ s.opix = 0
  prev : s.prev = Pixel.prev0
  cache : s.cache = Vector.replicate 64 Pixel.zero
  out : s.outMem = []
  err : s.errKind = .noError ∧ s.errOff = 0

/-- What holds between opcode steps and in DONE (10_state.md R26, R27; 41_stream_cycle.md R136, R139). -/
structure State.Decoding (s : State) : Prop where
  image : s.ImageLegal
  iptr_low : 14 ≤ s.iptr
  iptr_high : s.iptr ≤ s.l
  err : s.errKind = .noError ∧ s.errOff = 0
  /-- Before the first opcode step nothing has moved (40_header.md R108). -/
  first : s.opix = 0 → s.iptr = 14 ∧ s.prev = Pixel.prev0 ∧ s.cache = Vector.replicate 64 Pixel.zero
  /-- After it, PREV is in the cache (R136 (b)). -/
  prev_cached : 0 < s.opix → cacheRead (pixelHash s.prev) s = s.prev
  /-- Exactly the bytes of pixels 0 .. OPIX-1 are written (R136 (c), (d)). -/
  out : s.outMem.map Prod.fst = List.range (s.opix * s.c.toNat)
  /-- A unit emits at most 62 pixels (R139). -/
  pace : s.opix ≤ 62 * (s.iptr - 14)

/-- The invariant of the machine: what every step keeps, from every state that has it. -/
structure State.Inv (s : State) : Prop where
  params : s.params.wf = true
  in_wf : Memory.wf s.inMem
  out_wf : Memory.wf s.outMem
  in_fits : ∀ x ∈ s.inMem, x.1 < s.params.pInMax
  len_fits : s.l ≤ s.params.pInMax
  input_resident : Memory.resident s.inMem s.l
  cache_law : s.CacheLaw
  started : s.phase = .header → s.AtStart
  streaming : s.phase = .stream → s.Decoding ∧ s.opix < s.pixelCount
  finished : s.phase = .done → s.Decoding ∧ s.opix = s.pixelCount
  failed : s.phase = .error → s.errKind ≠ .noError ∧ s.errOff ≤ s.l

/-- A refusal that answers a host move breaking a duty (70_reset_and_hazards.md R233; log 6). -/
def Refusal.hostDuty : Refusal → Bool
  | .inputChangedDuringDecode => true
  | .inputMemoryTooSmall _ _ => true
  | .startLengthTooLarge _ => true
  | .startInputNotResident _ => true
  | _ => false

/-- The block moves on its own in this phase: a decode is in progress (10_state.md R21). -/
def Phase.busy : Phase → Bool
  | .idle => false
  | .header => true
  | .stream => true
  | .done => false
  | .error => false

/-- `k` steps, stopping at the first fault or refusal. -/
def steps : Nat → State → Host.Outcome State Fault Refusal
  | 0, s => .next s
  | k + 1, s => andThen (step s) (steps k)

/-- The pixel and the count an `Exec` returns (41_stream_cycle.md R125's table). -/
def execResult (i : Instr) (s : State) : Pixel × Nat :=
  match i with
  | .rgb r g b => (rgbPixel r g b s, 1)
  | .rgba r g b a => (rgbaPixel r g b a, 1)
  | .index idx => (cacheRead idx s, 1)
  | .diff dr dg db => (deltaPixel dr dg db s.prev, 1)
  | .luma dg drdg dbdg => (deltaPixel (dg + drdg) dg (dg + dbdg) s.prev, 1)
  | .run n => (s.prev, n)

end Sys2Proof.Machine
end

