-- ==== Sys2Proof/Certificates/Slice0/Obligations.lean ====
section
/-! DEFINITION. What is claimed of the model: one `def Obligations.<Name> : Prop` per statement, each with the rule of spec/ it
formalises or the sections it rests on. Nothing is proved here. -/

namespace Sys2Proof.Claims

open Sys2Proof.Machine

/-- The bytes `bs` stand in IN from offset `a` on. -/
def placed (s : State) (a : Nat) (bs : List Byte) : Prop :=
  ∀ k < bs.length, Memory.read s.inMem (a + k) = bs[k]?

/-- Only ERR_KIND, ERR_OFF and PHASE differ (60_exceptions.md R206). -/
def failedWith (k : ErrKind) (off : Nat) (s : State) : State :=
  { s with errKind := k, errOff := off, phase := .error }

/-- The whole effect of a unit of `len` bytes that emits the one pixel `p`: its cache slot, its C channel bytes at OPIX*C, OPIX,
PREV, IPTR, and DONE with the last pixel; every other register and both parameters as before (41_stream_cycle.md R128 to
R131). -/
def onePixel (p : Pixel) (len : Nat) (s : State) : State :=
  { s with
    cache := s.cache.set ((p.r.toNat * 3 + p.g.toNat * 5 + p.b.toNat * 7 + p.a.toNat * 11) % 64) p
      (Nat.mod_lt _ (by decide))
    outMem := Memory.writeBytes s.outMem (s.opix * s.c.toNat) ([p.r, p.g, p.b, p.a].take s.c.toNat)
    opix := s.opix + 1
    prev := p
    iptr := s.iptr + len
    phase := if s.opix + 1 = s.w.toNat * s.h.toNat then .done else s.phase }

/-- The pixels a unit emits (41_stream_cycle.md R125): one, but for RUN. -/
def emitCount : Instr → Nat
  | .rgb _ _ _ => 1
  | .rgba _ _ _ _ => 1
  | .index _ => 1
  | .diff _ _ _ => 1
  | .luma _ _ _ => 1
  | .run n => n

/-- The unit's pixels still fit in the image (41_stream_cycle.md R126). -/
def fits (i : Instr) (s : State) : Prop :=
  s.opix + emitCount i ≤ s.w.toNat * s.h.toNat

/-- The bytes of the units of a list, one after another (30_encoding.md R81). -/
def encodeAll : List Instr → List Byte
  | [] => []
  | i :: is => encode i ++ encodeAll is

/-- The units of a list executed in order, for as long as the decode goes on. -/
def execAll : List Instr → State → Host.Outcome State Fault Refusal
  | [], s => .next s
  | i :: is, s =>
    match s.phase with
    | .stream => andThen (exec i s) (execAll is)
    | _ => .next s

end Sys2Proof.Claims

open Sys2Proof Sys2Proof.Machine Sys2Proof.Claims

/-! ### Encoding -/

/-- Decoding an encoded well-formed unit gives it back, with whatever follows it left over. Rests on 30_encoding.md sections 3, 4
and 7 (R72 to R78, R82). -/
def Obligations.DecodeInvertsEncode : Prop :=
  ∀ (i : Instr) (rest : List Byte), i.wf = true → decode (encode i ++ rest) = .ok (i, rest)

/-- What decodes is a well-formed unit, and the bytes it took are its encoding: no two byte strings decode to one unit. Rests on
30_encoding.md sections 2 to 4. -/
def Obligations.EncodeInvertsDecode : Prop :=
  ∀ (bs : List Byte) (i : Instr) (rest : List Byte),
    decode bs = .ok (i, rest) → i.wf = true ∧ bs = encode i ++ rest

/-- The decoder refuses a byte list only for want of bytes: no opcode byte is illegal and no extra byte is (30_encoding.md section 6,
which derives it from R71). -/
def Obligations.DecodeRefusesOnlyMissingBytes : Prop :=
  (decode [] = .error .noOpcodeByte) ∧
  ∀ (b : Byte) (rest : List Byte),
    ((∃ r, decode (b :: rest) = .error r) ↔ rest.length + 1 < unitLen (classify b))

/-- The opcode byte alone decides the kind of a unit, by the byte ranges of 30_encoding.md section 6, and how many of the bytes after it the
unit takes, by section 5. -/
def Obligations.OpcodeByteDecidesKindAndLength : Prop :=
  ∀ (b : Byte) (rest : List Byte) (i : Instr) (more : List Byte), decode (b :: rest) = .ok (i, more) →
    (b.toNat ≤ 0x3F → (∃ idx, i = .index idx) ∧ more = rest) ∧
    (0x40 ≤ b.toNat → b.toNat ≤ 0x7F → (∃ dr dg db, i = .diff dr dg db) ∧ more = rest) ∧
    (0x80 ≤ b.toNat → b.toNat ≤ 0xBF → (∃ dg drdg dbdg, i = .luma dg drdg dbdg) ∧ more = rest.drop 1) ∧
    (0xC0 ≤ b.toNat → b.toNat ≤ 0xFD → (∃ n, i = .run n) ∧ more = rest) ∧
    (b.toNat = 0xFE → (∃ r g bl, i = .rgb r g bl) ∧ more = rest.drop 3) ∧
    (b.toNat = 0xFF → (∃ r g bl a, i = .rgba r g bl a) ∧ more = rest.drop 4)

/-- Units written out bit by bit from R72 to R77 and the examples of 95_test_vectors.md decode to what they stand for. -/
def Obligations.SpecWordsDecode : Prop :=
  decode [0b11111110, 100, 150, 200] = .ok (.rgb 100 150 200, []) ∧
  decode [0b11111111, 10, 20, 30, 40] = .ok (.rgba 10 20 30 40, []) ∧
  decode [0b00001100] = .ok (.index 12, []) ∧
  decode [0b01000111] = .ok (.diff (-2) (-1) 1, []) ∧
  decode [0b10011110, 0b00111100] = .ok (.luma (-2) (-5) 4, []) ∧
  decode [0b11111101] = .ok (.run 62, []) ∧
  decode [0b11000000] = .ok (.run 1, [])

/-! ### The header step -/

/-- R109's law, which the spec derives: a header serialized from legal fields is read back, and the step commits as R107 says and
writes nothing else. -/
def Obligations.HeaderRoundTrip : Prop :=
  ∀ (s : State) (w h : Dim) (c cs : Byte),
    s.phase = .header → s.host = [] → w ≠ 0 → h ≠ 0 → (c = 3 ∨ c = 4) → (cs = 0 ∨ cs = 1) →
    w.toNat * h.toNat * c.toNat ≤ s.params.pOutCap → 15 ≤ s.l → placed s 0 (serializeHeader w h c cs) →
    step s = .next { s with w := w, h := h, c := c, cs := cs, iptr := 14, phase := .stream }

/-- An input that ends before a header field raises TruncatedInput at that field, or at 14 when only the first opcode byte is missing:
rows 1, 3, 5, 7, 10 and 12 of R200, in R100's order of checks. -/
def Obligations.ShortHeaderRaisesTruncated : Prop :=
  ∀ (s : State) (w h : Dim) (c cs : Byte), s.phase = .header → s.host = [] →
    (s.l < 4 → step s = .next (failedWith .truncatedInput 0 s)) ∧
    (placed s 0 magic →
      (4 ≤ s.l → s.l < 8 → step s = .next (failedWith .truncatedInput 4 s)) ∧
      (placed s 4 (dimBytes w) → w ≠ 0 →
        (8 ≤ s.l → s.l < 12 → step s = .next (failedWith .truncatedInput 8 s)) ∧
        (placed s 8 (dimBytes h) → h ≠ 0 →
          (s.l = 12 → step s = .next (failedWith .truncatedInput 12 s)) ∧
          (placed s 12 [c] → (c = 3 ∨ c = 4) → w.toNat * h.toNat * c.toNat ≤ s.params.pOutCap →
            (s.l = 13 → step s = .next (failedWith .truncatedInput 13 s)) ∧
            (placed s 13 [cs] → (cs = 0 ∨ cs = 1) → s.l = 14 →
              step s = .next (failedWith .truncatedInput 14 s))))))

/-- A header whose field has a wrong value raises that field's error: rows 2, 4, 6, 8, 9 and 11 of R200, each when every earlier
check of R100 passes. -/
def Obligations.BadHeaderFieldRaisesItsError : Prop :=
  ∀ (s : State) (tag : List Byte) (w h : Dim) (c cs : Byte), s.phase = .header → s.host = [] →
    (4 ≤ s.l → tag.length = 4 → tag ≠ magic → placed s 0 tag → step s = .next (failedWith .invalidMagic 0 s)) ∧
    (placed s 0 magic →
      (8 ≤ s.l → placed s 4 [0, 0, 0, 0] → step s = .next (failedWith .malformedStream 4 s)) ∧
      (placed s 4 (dimBytes w) → w ≠ 0 →
        (12 ≤ s.l → placed s 8 [0, 0, 0, 0] → step s = .next (failedWith .malformedStream 8 s)) ∧
        (placed s 8 (dimBytes h) → h ≠ 0 → placed s 12 [c] →
          (13 ≤ s.l → c ≠ 3 → c ≠ 4 → step s = .next (failedWith .unsupportedChannelCount 12 s)) ∧
          (13 ≤ s.l → (c = 3 ∨ c = 4) → s.params.pOutCap < w.toNat * h.toNat * c.toNat →
            step s = .next (failedWith .malformedStream 4 s)) ∧
          (14 ≤ s.l → (c = 3 ∨ c = 4) → w.toNat * h.toNat * c.toNat ≤ s.params.pOutCap → placed s 13 [cs] →
            1 < cs.toNat → step s = .next (failedWith .malformedStream 13 s)))))

/-- Only the header step raises InvalidMagic, at offset 0, and UnsupportedChannelCount, at offset 12, each for its own field
(R201, R202). -/
def Obligations.OnlyTheHeaderRaisesMagicAndChannelErrors : Prop :=
  ∀ s t : State, step s = .next t → s.phase ≠ .error → t.phase = .error →
    (t.errKind = .invalidMagic → s.phase = .header ∧ t.errOff = 0 ∧ ¬ placed s 0 magic) ∧
    (t.errKind = .unsupportedChannelCount → s.phase = .header ∧ t.errOff = 12 ∧
      ∃ c, Memory.read s.inMem 12 = some c ∧ c ≠ 3 ∧ c ≠ 4)

/-- Whatever the header step finds, it leaves CACHE, PREV, OPIX and OUT as they were (R108's first two sentences), IN and L too, the
parameters (log 1), and the error registers unless it fails. -/
def Obligations.HeaderStepLeavesTheDecoderAlone : Prop :=
  ∀ s t : State, s.phase = .header → s.host = [] → step s = .next t →
    t.cache = s.cache ∧ t.prev = s.prev ∧ t.opix = s.opix ∧ t.outMem = s.outMem ∧ t.inMem = s.inMem ∧ t.l = s.l ∧
    t.params = s.params ∧
    ((t.phase = .stream ∧ t.errKind = s.errKind ∧ t.errOff = s.errOff) ∨
      (t.phase = .error ∧ t.w = s.w ∧ t.h = s.h ∧ t.c = s.c ∧ t.cs = s.cs ∧ t.iptr = s.iptr))

/-! ### The opcode step -/

/-- When the bytes at IPTR are the encoding of a well-formed unit, all of them before L, a step in PHASE STREAM is the execution of
that unit, with the host's `letRun` taken off its schedule if it stands there (R120 to R125; the schedule is the model's own,
log 5). -/
def Obligations.StepRunsTheDecodedUnit : Prop :=
  ∀ (i : Instr) (s : State), i.wf = true → s.phase = .stream → placed s s.iptr (encode i) →
    s.iptr + (encode i).length ≤ s.l →
    (s.host = [] → step s = exec i s) ∧
    (∀ rest, s.host = .letRun :: rest → step s = exec i { s with host := rest })

/-- R121: with no opcode byte left a step raises MalformedStream(L). -/
def Obligations.EndOfInputRaisesMalformed : Prop :=
  ∀ s : State, s.phase = .stream → s.host = [] → s.iptr = s.l →
    step s = .next (failedWith .malformedStream s.l s)

/-- R124: with an extra byte missing a step raises TruncatedInput(IPTR); no premise says anything of the bytes behind the opcode byte, and
none is read. -/
def Obligations.MissingExtraByteRaisesTruncated : Prop :=
  ∀ (s : State) (b : Byte), s.phase = .stream → s.host = [] → s.iptr < s.l → Memory.read s.inMem s.iptr = some b →
    s.l < s.iptr + unitLen (classify b) →
    step s = .next (failedWith .truncatedInput s.iptr s)

/-- R126: a unit whose pixels do not fit raises MalformedStream(IPTR) and emits nothing. -/
def Obligations.OverrunRaisesMalformed : Prop :=
  ∀ (i : Instr) (s : State), s.w.toNat * s.h.toNat < s.opix + emitCount i →
    exec i s = .next (failedWith .malformedStream s.iptr s)

/-- What the spec derives of the two checks of an opcode step (41_stream_cycle.md section 1, 60_exceptions.md section 2): with the opcode byte
`b` there and a pixel owed, a step into ERROR records IPTR with one of two kinds: TruncatedInput, and then `b` is an RGB, RGBA or LUMA byte
whose unit passes L; or MalformedStream, and then `b` is a RUN byte whose count, `b` less 191, passes W*H. An INDEX or a DIFF never ends
in ERROR. (The kinds and the offset are the spec's decisions: log 11.) -/
def Obligations.WhichUnitsCanFailWhichCheck : Prop :=
  ∀ (s t : State) (b : Byte), s.phase = .stream → s.host = [] → s.iptr < s.l → Memory.read s.inMem s.iptr = some b →
    s.opix < s.w.toNat * s.h.toNat → step s = .next t → t.phase = .error →
    t.errOff = s.iptr ∧
      ((t.errKind = .truncatedInput ∧ (classify b = .rgb ∨ classify b = .rgba ∨ classify b = .luma) ∧
          s.l < s.iptr + unitLen (classify b)) ∨
        (t.errKind = .malformedStream ∧ classify b = .run ∧
          s.w.toNat * s.h.toNat < s.opix + (b.toNat - 191)))

/-- R206: a step that raises writes ERR_KIND, ERR_OFF and PHASE and nothing else, and what the host observes is that pair. -/
def Obligations.ErrorEntryWritesThreeRegisters : Prop :=
  ∀ s t : State, s.host = [] → s.phase ≠ .error → step s = .next t → t.phase = .error →
    t = { s with errKind := t.errKind, errOff := t.errOff, phase := .error } ∧ t.errKind ≠ .noError ∧
      ∀ n, observe n t = some (.err t.errKind t.errOff)

/-- Executing a unit ends in a next state on every state and every operand: no unit faults or is refused (R125: an `Exec` cannot raise;
R52: no write leaves OUT). -/
def Obligations.EveryUnitAnswersANextState : Prop :=
  ∀ (i : Instr) (s : State), ∃ t, exec i s = .next t

/-! ### The six units -/

/-- R150. RGB: its encoding; its pixel, with PREV's alpha whatever C is, and its whole effect; TruncatedInput(IPTR) when fewer than
three bytes follow; MalformedStream(L) when no opcode byte is left. -/
def Obligations.RgbUnit : Prop :=
  ∀ (r g b : Byte) (s : State),
    (∀ rest, decode (0xFE :: r :: g :: b :: rest) = .ok (.rgb r g b, rest)) ∧
    (s.opix < s.w.toNat * s.h.toNat →
      exec (.rgb r g b) s = .next (onePixel { r := r, g := g, b := b, a := s.prev.a } 4 s)) ∧
    (s.phase = .stream → s.host = [] → s.iptr < s.l → placed s s.iptr [0xFE] → s.l < s.iptr + 4 →
      step s = .next (failedWith .truncatedInput s.iptr s)) ∧
    (s.phase = .stream → s.host = [] → s.iptr = s.l → step s = .next (failedWith .malformedStream s.l s))

/-- R151. RGBA: its encoding; its pixel verbatim and its whole effect; its two errors. -/
def Obligations.RgbaUnit : Prop :=
  ∀ (r g b a : Byte) (s : State),
    (∀ rest, decode (0xFF :: r :: g :: b :: a :: rest) = .ok (.rgba r g b a, rest)) ∧
    (s.opix < s.w.toNat * s.h.toNat →
      exec (.rgba r g b a) s = .next (onePixel { r := r, g := g, b := b, a := a } 5 s)) ∧
    (s.phase = .stream → s.host = [] → s.iptr < s.l → placed s s.iptr [0xFF] → s.l < s.iptr + 5 →
      step s = .next (failedWith .truncatedInput s.iptr s)) ∧
    (s.phase = .stream → s.host = [] → s.iptr = s.l → step s = .next (failedWith .malformedStream s.l s))

/-- R160. INDEX: its encoding; the entry verbatim, as it was before this step's cache write, and its whole effect;
with its byte there a step is its execution, so that the other error, the one stated last, is the only one. -/
def Obligations.IndexUnit : Prop :=
  ∀ (idx : Fin 64) (s : State),
    (∀ rest, decode (BitVec.ofNat 8 idx.val :: rest) = .ok (.index idx, rest)) ∧
    (s.opix < s.w.toNat * s.h.toNat →
      exec (.index idx) s = .next (onePixel s.cache[idx.val] 1 s)) ∧
    (s.phase = .stream → s.host = [] → s.iptr < s.l → placed s s.iptr [BitVec.ofNat 8 idx.val] →
      step s = exec (.index idx) s) ∧
    (s.phase = .stream → s.host = [] → s.iptr = s.l → step s = .next (failedWith .malformedStream s.l s))

/-- DIFF (44_delta.md R170, the field positions being the spec's decision D20): from a byte 01rrggbb, each channel is the sum modulo 256
of PREV's and the field less two, and alpha is PREV's; its whole effect; its one error. -/
def Obligations.DiffUnit : Prop :=
  ∀ (s : State) (x y z : Fin 4),
    (∀ rest, decode (BitVec.ofNat 8 (64 + 16 * x.val + 4 * y.val + z.val) :: rest)
      = .ok (.diff ((x.val : Int) - 2) ((y.val : Int) - 2) ((z.val : Int) - 2), rest)) ∧
    (∀ dr dg db : Int, s.opix < s.w.toNat * s.h.toNat →
      ∃ p, exec (.diff dr dg db) s = .next (onePixel p 1 s) ∧
        (p.r.toNat : Int) = ((s.prev.r.toNat : Int) + dr) % 256 ∧
        (p.g.toNat : Int) = ((s.prev.g.toNat : Int) + dg) % 256 ∧
        (p.b.toNat : Int) = ((s.prev.b.toNat : Int) + db) % 256 ∧ p.a = s.prev.a) ∧
    (s.phase = .stream → s.host = [] → s.iptr = s.l → step s = .next (failedWith .malformedStream s.l s))

/-- R171. LUMA: its encoding; green moves by dg, red by dg + (dr - dg), blue by dg + (db - dg), each modulo 256, and alpha is PREV's; its
whole effect; its two errors. -/
def Obligations.LumaUnit : Prop :=
  ∀ (s : State) (x : Fin 64) (y z : Fin 16),
    (∀ rest, decode (BitVec.ofNat 8 (128 + x.val) :: BitVec.ofNat 8 (16 * y.val + z.val) :: rest)
      = .ok (.luma ((x.val : Int) - 32) ((y.val : Int) - 8) ((z.val : Int) - 8), rest)) ∧
    (∀ dg drdg dbdg : Int, s.opix < s.w.toNat * s.h.toNat →
      ∃ p, exec (.luma dg drdg dbdg) s = .next (onePixel p 2 s) ∧
        (p.r.toNat : Int) = ((s.prev.r.toNat : Int) + dg + drdg) % 256 ∧
        (p.g.toNat : Int) = ((s.prev.g.toNat : Int) + dg) % 256 ∧
        (p.b.toNat : Int) = ((s.prev.b.toNat : Int) + dg + dbdg) % 256 ∧ p.a = s.prev.a) ∧
    (s.phase = .stream → s.host = [] → s.iptr < s.l → placed s s.iptr [BitVec.ofNat 8 (128 + x.val)] →
      s.l < s.iptr + 2 → step s = .next (failedWith .truncatedInput s.iptr s)) ∧
    (s.phase = .stream → s.host = [] → s.iptr = s.l → step s = .next (failedWith .malformedStream s.l s))

/-- R180 (with R182). RUN: its encoding; with room for its pixels it completes: PREV is kept and cached once, OPIX rises by n and IPTR by one,
pixel OPIX+i of OUT is PREV for every i below n, one pixel a repeat, and every other byte of OUT and every other register is as
before; without room it raises MalformedStream(IPTR) and does nothing else; with its byte there a step is its execution, so it raises
no TruncatedInput; MalformedStream(L) when no opcode byte is left. C is 3 or 4, as the invariant says of a decode. -/
def Obligations.RunUnit : Prop :=
  ∀ (n : Nat) (s : State), 1 ≤ n → n ≤ 62 →
    (∀ rest, decode (BitVec.ofNat 8 (191 + n) :: rest) = .ok (.run n, rest)) ∧
    (s.opix + n ≤ s.w.toNat * s.h.toNat →
      ∃ t, exec (.run n) s = .next t ∧
        t = { s with
              cache := s.cache.set (pixelHash s.prev).val s.prev (pixelHash s.prev).isLt
              outMem := t.outMem
              opix := s.opix + n
              iptr := s.iptr + 1
              phase := if s.opix + n = s.w.toNat * s.h.toNat then .done else s.phase } ∧
        (∀ k j, (s.c = 3 ∨ s.c = 4) → k < n → j < s.c.toNat →
          Memory.read t.outMem ((s.opix + k) * s.c.toNat + j)
            = [s.prev.r, s.prev.g, s.prev.b, s.prev.a][j]?) ∧
        (∀ a, a < s.opix * s.c.toNat ∨ (s.opix + n) * s.c.toNat ≤ a →
          Memory.read t.outMem a = Memory.read s.outMem a)) ∧
    (s.w.toNat * s.h.toNat < s.opix + n → exec (.run n) s = .next (failedWith .malformedStream s.iptr s)) ∧
    (s.phase = .stream → s.host = [] → s.iptr < s.l → placed s s.iptr [BitVec.ofNat 8 (191 + n)] →
      step s = exec (.run n) s) ∧
    (s.phase = .stream → s.host = [] → s.iptr = s.l → step s = .next (failedWith .malformedStream s.l s))

/-- What the spec derives of a RUN's cache write (41_stream_cycle.md section 2; the write itself is the spec's decision D10: log 9): a RUN as the
first unit caches the initial PREV in slot 53, which INDEX 53 then gives; a RUN after another unit, under the decoding invariant, leaves
CACHE as it was. (The copies it emits: RunUnit.) -/
def Obligations.FirstRunCachesInitialPrev : Prop :=
  ∀ (n : Nat) (s : State), 1 ≤ n → s.opix + n ≤ s.w.toNat * s.h.toNat →
    (s.prev = { r := 0, g := 0, b := 0, a := 255 } → s.cache = Vector.replicate 64 { r := 0, g := 0, b := 0, a := 0 } →
      ∃ t, exec (.run n) s = .next t ∧ t.prev = { r := 0, g := 0, b := 0, a := 255 } ∧
        (∀ idx : Fin 64, t.cache[idx.val]
          = if idx.val = 53 then { r := 0, g := 0, b := 0, a := 255 } else { r := 0, g := 0, b := 0, a := 0 }) ∧
        (s.opix + n < s.w.toNat * s.h.toNat →
          exec (.index 53) t = .next (onePixel { r := 0, g := 0, b := 0, a := 255 } 1 t))) ∧
    (s.Decoding → 0 < s.opix → ∃ t, exec (.run n) s = .next t ∧ t.cache = s.cache)

/-! ### What all units have in common -/

/-- R128: a unit that passes its checks writes CACHE[hash(p)] <- p, p being the pixel its `Exec` returned, and no other entry. -/
def Obligations.UnitCachesItsPixel : Prop :=
  ∀ (i : Instr) (s : State), fits i s → ∃ t, exec i s = .next t ∧
    ∀ idx : Fin 64, t.cache[idx.val]
      = if idx = pixelHash (execResult i s).1 then (execResult i s).1 else s.cache[idx.val]

/-- R127: the hash is the weighted sum modulo 64; the sum is at most 6630; and the rule's three examples. -/
def Obligations.HashFormula : Prop :=
  (∀ p : Pixel, (pixelHash p).val = (p.r.toNat * 3 + p.g.toNat * 5 + p.b.toNat * 7 + p.a.toNat * 11) % 64 ∧
    p.r.toNat * 3 + p.g.toNat * 5 + p.b.toNat * 7 + p.a.toNat * 11 ≤ 6630) ∧
  pixelHash { r := 0, g := 0, b := 0, a := 0 } = 0 ∧ pixelHash { r := 0, g := 0, b := 0, a := 255 } = 53 ∧
  pixelHash { r := 10, g := 20, b := 30, a := 40 } = 12

/-- R137, which the spec derives: a sum taken modulo 2^k, k at least 6, gives the same index; so does an 8-bit wrapping sum. -/
def Obligations.HashNeedsSixBits : Prop :=
  ∀ (p : Pixel) (k : Nat), 6 ≤ k →
    (pixelHash p).val = (3 * p.r.toNat + 5 * p.g.toNat + 7 * p.b.toNat + 11 * p.a.toNat) % 2 ^ k % 64 ∧
    (pixelHash p).val = (((3 : Byte) * p.r + (5 : Byte) * p.g + (7 : Byte) * p.b + (11 : Byte) * p.a).extractLsb 5 0).toNat

/-- R129. Emit, once or n times: with the pixels owed, pixel OPIX+k is written at (OPIX+k)*C as the first C of the bytes r, g, b, a, in order; OPIX
moves by n, PREV becomes the pixel, and nothing else changes: no other byte of OUT, so with C = 3 no alpha byte either. -/
def Obligations.EmitWritesPixelsInOrder : Prop :=
  (∀ (p : Pixel) (s : State), emitTimes 1 p s = emit p s) ∧
  ∀ (n : Nat) (p : Pixel) (s : State), 1 ≤ n → s.opix + n ≤ s.w.toNat * s.h.toNat → (s.c = 3 ∨ s.c = 4) →
    ∃ t, emitTimes n p s = .next t ∧ t = { s with outMem := t.outMem, opix := s.opix + n, prev := p } ∧
      (∀ k < n,
        Memory.read t.outMem ((s.opix + k) * s.c.toNat) = some p.r ∧
        Memory.read t.outMem ((s.opix + k) * s.c.toNat + 1) = some p.g ∧
        Memory.read t.outMem ((s.opix + k) * s.c.toNat + 2) = some p.b ∧
        (s.c = 4 → Memory.read t.outMem ((s.opix + k) * s.c.toNat + 3) = some p.a)) ∧
      ∀ a, a < s.opix * s.c.toNat ∨ (s.opix + n) * s.c.toNat ≤ a → Memory.read t.outMem a = Memory.read s.outMem a

/-- R130: a unit that has executed moved IPTR by its length. -/
def Obligations.UnitAdvancesByItsLength : Prop :=
  ∀ (i : Instr) (s : State), fits i s → ∃ t, exec i s = .next t ∧
    t.iptr = s.iptr + (match i with
      | .rgb _ _ _ => 4
      | .rgba _ _ _ _ => 5
      | .index _ => 1
      | .diff _ _ _ => 1
      | .luma _ _ _ => 2
      | .run _ => 1)

/-- The frame of every unit (10_state.md R33's write column): with room for its pixels a unit keeps PHASE (unless it becomes DONE), L, W, H, C,
CS, ERR_KIND, ERR_OFF, IN, the parameters (log 1) and the host's schedule (log 5), and every byte of OUT outside the pixels it emits. -/
def Obligations.UnitFrame : Prop :=
  ∀ (i : Instr) (s : State), fits i s → ∃ t, exec i s = .next t ∧
    (t.phase = s.phase ∨ t.phase = .done) ∧ t.l = s.l ∧ t.w = s.w ∧ t.h = s.h ∧ t.c = s.c ∧ t.cs = s.cs ∧
    t.errKind = s.errKind ∧ t.errOff = s.errOff ∧ t.inMem = s.inMem ∧ t.params = s.params ∧ t.host = s.host ∧
    t.opix = s.opix + emitCount i ∧
    (∀ a, a < s.opix * s.c.toNat ∨ (s.opix + emitCount i) * s.c.toNat ≤ a →
      Memory.read t.outMem a = Memory.read s.outMem a)

/-- R131: a unit that emits the last pixel ends in DONE and one that does not stays in STREAM; in DONE the block takes no step, and the result
the host observes has W, H, C, CS and exactly W*H*C bytes. -/
def Obligations.LastPixelEndsTheDecode : Prop :=
  (∀ (i : Instr) (s : State), s.phase = .stream → fits i s → ∃ t, exec i s = .next t ∧
    (t.phase = .done ↔ s.opix + emitCount i = s.w.toNat * s.h.toNat) ∧ (t.phase ≠ .done → t.phase = .stream)) ∧
  (∀ s : State, s.phase = .done → s.host = [] → step s = .next s ∧
    ∀ n, ∃ out, observe n s = some (.ok s.w s.h s.c s.cs out) ∧ out.length = s.w.toNat * s.h.toNat * s.c.toNat)

/-- R132: the bytes at and past IPTR after the step that sets DONE were never read: any input that agrees below them gives the same step, and
DONE stays as it is. -/
def Obligations.TrailingBytesAreIgnored : Prop :=
  ∀ (s t : State) (m : Memory), s.phase = .stream → s.host = [] → step s = .next t → t.phase = .done →
    (∀ a, a < t.iptr → Memory.read m a = Memory.read s.inMem a) →
    step { s with inMem := m } = .next { t with inMem := m } ∧
      step { t with inMem := m } = .next { t with inMem := m }

/-- R24, R135: the channel count decides only how many bytes Emit stores. A unit run with another C leaves the same state but for OUT and C. -/
def Obligations.ChannelCountOnlyShapesOutput : Prop :=
  ∀ (i : Instr) (s : State) (c : Byte), fits i s →
    ∃ t u, exec i s = .next t ∧ exec i { s with c := c } = .next u ∧ u = { t with c := c, outMem := u.outMem }

/-- R135's condition, which the spec derives: from alpha 255, a unit that is no RGBA with another alpha and no INDEX of an entry with another alpha
leaves PREV with alpha 255, and caches no pixel with another. -/
def Obligations.AlphaStaysOpaque : Prop :=
  ∀ (i : Instr) (s : State), fits i s → s.prev.a = 255 →
    (∀ r g b a, i = .rgba r g b a → a = 255) → (∀ idx : Fin 64, i = .index idx → s.cache[idx.val].a = 255) →
    ∃ t, exec i s = .next t ∧ t.prev.a = 255 ∧
      ∀ idx : Fin 64, t.cache[idx.val] ≠ s.cache[idx.val] → t.cache[idx.val].a = 255

/-- R172: the delta lanes are independent, wrap both ways and copy alpha; the unit has no exception. -/
def Obligations.DeltaLanesWrapIndependently : Prop :=
  (∀ (dr dg db : Int) (p q : Pixel),
    let u := deltaPixel dr dg db p
    let v := deltaPixel dr dg db q
    (p.r = q.r → u.r = v.r) ∧ (p.g = q.g → u.g = v.g) ∧ (p.b = q.b → u.b = v.b) ∧ u.a = p.a ∧
    (u.r.toNat : Int) = ((p.r.toNat : Int) + dr) % 256 ∧ (u.g.toNat : Int) = ((p.g.toNat : Int) + dg) % 256 ∧
    (u.b.toNat : Int) = ((p.b.toNat : Int) + db) % 256 ∧ deltaPixel (-dr) (-dg) (-db) u = p) ∧
  (deltaPixel (-2) 0 0 { r := 0, g := 0, b := 0, a := 255 }).r = 254 ∧
  (∀ (x y z : Int) (s : State), s.opix < s.w.toNat * s.h.toNat → s.phase = .stream →
    (∃ t, exec (.diff x y z) s = .next t ∧ t.errKind = s.errKind ∧ t.errOff = s.errOff ∧ t.phase ≠ .error) ∧
    (∃ t, exec (.luma x y z) s = .next t ∧ t.errKind = s.errKind ∧ t.errOff = s.errOff ∧ t.phase ≠ .error))

/-! ### The whole machine -/

/-- The state after a power-on reset has R37's values "after RESET" in every register, and meets the invariant. -/
def Obligations.ResetMeetsTheInvariant : Prop :=
  State.reset.Inv ∧
  State.reset.phase = .idle ∧ State.reset.l = 0 ∧ State.reset.w = 0 ∧ State.reset.h = 0 ∧ State.reset.c = 0 ∧
  State.reset.cs = 0 ∧ State.reset.iptr = 0 ∧ State.reset.opix = 0 ∧
  State.reset.prev = { r := 0, g := 0, b := 0, a := 255 } ∧
  (∀ idx : Fin 64, State.reset.cache[idx.val] = { r := 0, g := 0, b := 0, a := 0 }) ∧
  State.reset.errKind = .noError ∧ State.reset.errOff = 0

/-- Every step, of the block or of the host, keeps the invariant (R136 (a) to (e), R26, R27, which the spec derives). -/
def Obligations.StepKeepsTheInvariant : Prop :=
  ∀ s t : State, s.Inv → step s = .next t → t.Inv

/-- From a state that meets the invariant no step faults, and none is refused but a host command, under one of the four names that
`Refusal.hostDuty` lists (R51, R52, R80; R233 and R32 give the duties, and the refusals are the model's choice, log 6; which command gets
which name is HostDutiesAreEnforced). -/
def Obligations.NoFaultUnderTheInvariant : Prop :=
  ∀ s : State, s.Inv →
    (∃ t, step s = .next t) ∨
      (∃ r k rest, step s = .refused r ∧ s.host = .command k :: rest ∧ r.hostDuty = true)

/-- R136 (a) by itself, with no other invariant: every entry stays empty or at its own hash. -/
def Obligations.CacheLawIsKept : Prop :=
  ∀ s t : State, s.CacheLaw → step s = .next t → t.CacheLaw

/-- Every step keeps both memories in their canonical form (the model's own, logs 3 and 4). -/
def Obligations.MemoriesStayCanonical : Prop :=
  ∀ s t : State, Memory.wf s.inMem → Memory.wf s.outMem → step s = .next t →
    Memory.wf t.inMem ∧ Memory.wf t.outMem

/-- A MemWrite inside OUT reads back byte for byte and leaves every other byte; one past W*H*C is not made (R52). -/
def Obligations.MemWriteReadsBack : Prop :=
  ∀ (a : Nat) (v : List Byte) (s : State),
    (a + v.length ≤ s.w.toNat * s.h.toNat * s.c.toNat →
      ∃ m, memWrite a v s = .next m ∧ (∀ k < v.length, Memory.read m (a + k) = v[k]?) ∧
        ∀ x, x < a ∨ a + v.length ≤ x → Memory.read m x = Memory.read s.outMem x) ∧
    (s.w.toNat * s.h.toNat * s.c.toNat < a + v.length → memWrite a v s = .fault (.outWritePastEnd a v.length))

/-- R133, R139, which the spec derives: an opcode step under the invariant raises with IPTR unmoved, or moves IPTR forward by at least one byte
without passing L, into STREAM or DONE. -/
def Obligations.OpcodeStepMovesForward : Prop :=
  ∀ s : State, s.Inv → s.phase = .stream → s.host = [] → ∃ t, step s = .next t ∧
    ((t.phase = .error ∧ t.iptr = s.iptr) ∨
      ((t.phase = .stream ∨ t.phase = .done) ∧ s.iptr < t.iptr ∧ 14 ≤ t.iptr ∧ t.iptr ≤ t.l ∧ t.l = s.l))

/-- R207: in ERROR the block takes no step; the recorded error stays until START or RESET; and only START, ABORT or RESET leave ERROR. -/
def Obligations.ErrorAbsorbs : Prop :=
  ∀ s : State, s.phase = .error →
    (s.host = [] → step s = .next s) ∧
    ∀ t, step s = .next t →
      (t.phase ≠ .error → ∃ k rest, s.host = .command k :: rest ∧ (k = .abort ∨ k = .reset ∨ ∃ len, k = .start len)) ∧
      (t.phase = .error → t.errKind = s.errKind ∧ t.errOff = s.errOff)

/-- R21's column "left by": what can end each phase. -/
def Obligations.PhaseTransitions : Prop :=
  ∀ s t : State, step s = .next t → t.phase ≠ s.phase →
    (∃ k rest, s.host = .command k :: rest ∧
      ((k = .abort ∧ t.phase = .idle) ∨ (k = .reset ∧ t.phase = .idle) ∨ ∃ len, k = .start len ∧ t.phase = .header)) ∨
    (s.phase = .header ∧ (t.phase = .stream ∨ t.phase = .error)) ∨
    (s.phase = .stream ∧ (t.phase = .done ∨ t.phase = .error))

/-- R107's last part: W, H, C and CS change only in the header step and by START or RESET. -/
def Obligations.HeaderIsImmutableAfterParse : Prop :=
  ∀ s t : State, step s = .next t → (t.w ≠ s.w ∨ t.h ≠ s.h ∨ t.c ≠ s.c ∨ t.cs ≠ s.cs) →
    (s.phase = .header ∧ t.phase = .stream) ∨
      ∃ k rest, s.host = .command k :: rest ∧ (k = .reset ∨ ∃ len, k = .start len)

/-- 20_memory.md R63 with 70_reset_and_hazards.md R233 (a): no step of the block writes IN, and during a decode nothing does (that a placing is
refused then is the model's choice, log 6). The parameters of 00_scope.md R6 never change (that they are data of State which no step changes
is the model's choice, log 1). -/
def Obligations.InputIsNeverWrittenByTheBlock : Prop :=
  ∀ s t : State, step s = .next t →
    t.params = s.params ∧
    (t.inMem ≠ s.inMem → s.phase ≠ .header ∧ s.phase ≠ .stream ∧
      ∃ off bs rest, s.host = .command (.placeInput off bs) :: rest)

/-- R138, which the spec derives: two decodes of the same input of the same length, under the same parameters, from START in any two states,
agree on every register and on OUT after every number of steps. -/
def Obligations.DecodesOfEqualInputsAgree : Prop :=
  ∀ (len k : Nat) (s u : State), s.host = [] → u.host = [] → s.params = u.params →
    (∀ a < len, Memory.read s.inMem a = Memory.read u.inMem a) →
    ∀ t, steps k (startDecode len s) = .next t →
      ∃ v, steps k (startDecode len u) = .next v ∧ v = { t with inMem := u.inMem }

/-- R139 and R219, which the spec derives: a decode that the host leaves alone is in DONE or ERROR after L - 12 steps, or after one step when L is
below 13 (log 17). -/
def Obligations.EveryDecodeEnds : Prop :=
  ∀ s : State, s.Inv → s.phase = .header → s.host = [] →
    ∃ t, steps (max 1 (s.l - 12)) s = .next t ∧ (t.phase = .done ∨ t.phase = .error)

/-- R139's last sentence, which the spec derives: a decode that succeeds has at most 62 pixels for each stream byte. -/
def Obligations.SuccessNeedsEnoughBytes : Prop :=
  ∀ (k : Nat) (s t : State), s.Inv → steps k s = .next t → t.phase = .done →
    t.w.toNat * t.h.toNat ≤ 62 * (t.l - 14)

/-- 30_encoding.md section 6 (R81) and 41_stream_cycle.md R120: the steps over a stream of encoded units are the executions of those units in order,
until the decode ends. -/
def Obligations.StreamStepsAreUnitExecutions : Prop :=
  ∀ (is : List Instr) (s : State), (∀ i ∈ is, i.wf = true) → s.phase = .stream → s.host = [] →
    placed s s.iptr (encodeAll is) → s.iptr + (encodeAll is).length ≤ s.l →
    steps is.length s = execAll is s

/-- Completeness of the decoder for 4-channel images, from 30_encoding.md R72 to R84, 40_header.md R107 and 41_stream_cycle.md R129 to R131: a file of a
legal header and one RGBA literal per pixel decodes, in one step per pixel after the header step, to DONE with those very pixels in OUT. -/
def Obligations.RgbaImagesDecodeExactly : Prop :=
  ∀ (s : State) (w h : Dim) (cs : Byte) (px : List Pixel),
    s.Inv → s.phase = .header → s.host = [] → w ≠ 0 → h ≠ 0 → (cs = 0 ∨ cs = 1) →
    px.length = w.toNat * h.toNat → w.toNat * h.toNat * 4 ≤ s.params.pOutCap →
    placed s 0 (serializeHeader w h 4 cs ++ encodeAll (px.map fun p => .rgba p.r p.g p.b p.a)) →
    14 + 5 * px.length ≤ s.l →
    ∃ t, steps (px.length + 1) s = .next t ∧ t.phase = .done ∧ t.w = w ∧ t.h = h ∧ t.c = 4 ∧ t.cs = cs ∧
      ∀ k j, k < px.length → j < 4 →
        Memory.read t.outMem (k * 4 + j) = (px[k]?).bind fun p => [p.r, p.g, p.b, p.a][j]?

/-! ### The host -/

/-- R231: START with a length the input has sets L, clears CACHE, PREV, the cursors, W, H, C, CS and the error registers and enters HEADER, from any
phase; IN stays. (What OUT is then, the rule does not say: log 4.) -/
def Obligations.StartInitialisesTheDecode : Prop :=
  ∀ (s : State) (len : Nat) (rest : List HostMove), s.host = .command (.start len) :: rest → len ≤ s.params.pInMax →
    (∀ a < len, (Memory.read s.inMem a).isSome = true) →
    ∃ t, step s = .next t ∧
      t = { s with
            l := len, cache := Vector.replicate 64 { r := 0, g := 0, b := 0, a := 0 }
            prev := { r := 0, g := 0, b := 0, a := 255 }, iptr := 0, opix := 0, w := 0, h := 0, c := 0, cs := 0
            errKind := .noError, errOff := 0, phase := .header, outMem := t.outMem, host := rest }

/-- R214's row ABORT: from any phase, PHASE becomes IDLE and no other state changes; and nothing is observed then (R219). -/
def Obligations.AbortChangesOnlyPhase : Prop :=
  ∀ (s : State) (rest : List HostMove), s.host = .command .abort :: rest →
    step s = .next { s with phase := .idle, host := rest } ∧
      ∀ n, observe n { s with phase := .idle, host := rest } = none

/-- R230: from any phase RESET sets every register to its "after RESET" value and leaves IN as it is; and the registers after a power-on reset
are the same. (OUT is then unspecified: log 4.) -/
def Obligations.ResetCommandSetsEveryRegister : Prop :=
  ∀ (s : State) (rest : List HostMove), s.host = .command .reset :: rest →
    ∃ t, step s = .next t ∧
      t = { s with
            phase := .idle, l := 0, w := 0, h := 0, c := 0, cs := 0, iptr := 0, opix := 0
            prev := { r := 0, g := 0, b := 0, a := 255 }
            cache := Vector.replicate 64 { r := 0, g := 0, b := 0, a := 0 }
            errKind := .noError, errOff := 0, outMem := t.outMem, host := rest } ∧
      State.reset = { t with inMem := [], outMem := [], params := State.reset.params, host := [] }

/-- The model's choice (log 6) for the host duties of R233 and R32's bound: a write of IN during a decode, bytes past P_IN_MAX, a START over
P_IN_MAX or over the placed input are each refused by name; and outside a decode a placing within P_IN_MAX is made. -/
def Obligations.HostDutiesAreEnforced : Prop :=
  ∀ (s : State) (rest : List HostMove),
    (∀ off bs, s.host = .command (.placeInput off bs) :: rest →
      ((s.phase = .header ∨ s.phase = .stream) → step s = .refused .inputChangedDuringDecode) ∧
      (s.phase ≠ .header → s.phase ≠ .stream → s.params.pInMax < off + bs.length →
        step s = .refused (.inputMemoryTooSmall off bs.length)) ∧
      (s.phase ≠ .header → s.phase ≠ .stream → off + bs.length ≤ s.params.pInMax →
        ∃ t, step s = .next t ∧ t = { s with inMem := t.inMem, host := rest } ∧ placed t off bs ∧
          ∀ a, a < off ∨ off + bs.length ≤ a → Memory.read t.inMem a = Memory.read s.inMem a)) ∧
    (∀ len, s.host = .command (.start len) :: rest →
      (s.params.pInMax < len → step s = .refused (.startLengthTooLarge len)) ∧
      (len ≤ s.params.pInMax → (∃ a < len, Memory.read s.inMem a = none) →
        step s = .refused (.startInputNotResident len)))

/-- 10_state.md R35 with R21 to R25, R30 and R31: what the host reads of each register in the phases where it means something, with PHASE's and
ERR_KIND's codes 0 to 4 as R21 and R30 give them. (Both encodings are the spec's decision D13: log 14. What it reads in other phases is
free: log 13.) -/
def Obligations.HostReadsValidRegisters : Prop :=
  ∀ (n : Nat) (s : State),
    ((s.phase = .stream ∨ s.phase = .done) →
      hostReadW n s = s.w ∧ hostReadH n s = s.h ∧ hostReadC n s = s.c ∧ hostReadCS n s = s.cs) ∧
    (s.phase = .error → hostReadErrOff n s = s.errOff ∧
      (hostReadErrKind n s).toNat = (match s.errKind with
        | .noError => 0
        | .invalidMagic => 1
        | .unsupportedChannelCount => 2
        | .truncatedInput => 3
        | .malformedStream => 4)) ∧
    (hostReadPhase s).toNat = (match s.phase with
      | .idle => 0
      | .header => 1
      | .stream => 2
      | .done => 3
      | .error => 4)

/-- R219 under the invariant: in DONE the observation is W, H, C, CS and the bytes the decode wrote, at every address below W*H*C, whatever the free
values are; in ERROR it is the error's kind and offset; in any other phase there is none. -/
def Obligations.DoneObservationIsTheImage : Prop :=
  ∀ (n : Nat) (s : State), s.Inv →
    (s.phase = .done → ∃ out, observe n s = some (.ok s.w s.h s.c s.cs out) ∧
      out.length = s.w.toNat * s.h.toNat * s.c.toNat ∧ (s.c = 3 ∨ s.c = 4) ∧
      ∀ a < out.length, Memory.read s.outMem a = out[a]?) ∧
    (s.phase = .error → observe n s = some (.err s.errKind s.errOff)) ∧
    (s.phase ≠ .done → s.phase ≠ .error → observe n s = none)

/-- 00_scope.md R6 and 10_state.md R26, R27, R31, R32: under the invariant every cursor fits the least width the parameters give it. -/
def Obligations.CursorsFitTheirWidths : Prop :=
  ∀ s : State, s.Inv →
    s.l < 2 ^ s.params.offsetWidth ∧
    ((s.phase = .stream ∨ s.phase = .done) → s.iptr < 2 ^ s.params.offsetWidth ∧ s.opix < 2 ^ s.params.pixelWidth) ∧
    (s.phase = .error → s.errOff < 2 ^ s.params.offsetWidth)

/-- 10_state.md R29's packing (the spec's decision D12): r in [31:24], g in [23:16], b in [15:8], a in [7:0], and nothing is lost. -/
def Obligations.CacheWordPacking : Prop :=
  (∀ p : Pixel, p.pack.toNat = p.r.toNat * 2 ^ 24 + p.g.toNat * 2 ^ 16 + p.b.toNat * 2 ^ 8 + p.a.toNat ∧
    Pixel.unpack p.pack = p) ∧
  ∀ v : BitVec 32, (Pixel.unpack v).pack = v
end

