-- ==== Sys2Proof/Laws/Decode.lean ====
section
/-! SUPPORT. What classification, the encoder and the decoder do with each kind of unit (30_encoding.md). -/

namespace Sys2Proof

theorem inRange_iff {lo hi x : Int} : inRange lo hi x = true ↔ lo ≤ x ∧ x ≤ hi := by
  simp [inRange]

theorem unitLen_pos (k : Kind) : 0 < unitLen k := by
  cases k <;> decide

theorem unitLen_le (k : Kind) : unitLen k ≤ longestUnit := by
  cases k <;> decide

/-- A biased operand in range is a raw field (R9, R78). -/
theorem rebias_eq {bias : Nat} {x : Int} (h : 0 ≤ x + (bias : Int)) :
    rebias bias x = BitVec.ofNat 8 (x + (bias : Int)).toNat := by
  obtain ⟨n, hn⟩ := Int.eq_ofNat_of_zero_le h
  rw [rebias, hn]
  simp

theorem unbias_toNat {bias : Nat} {x : Int} (h : 0 ≤ x + (bias : Int)) :
    unbias bias (x + (bias : Int)).toNat = x := by
  unfold unbias; omega

/-! ### Fields of the encoded bytes, by evaluation over the raw values -/

theorem index_byte (i : Fin 64) :
    classify (BitVec.ofNat 8 i.val) = .index ∧ field 5 0 (BitVec.ofNat 8 i.val) = i.val := by
  revert i; decide

theorem diff_byte (x y z : Fin 4) :
    let b : Byte := 0x40 ||| (BitVec.ofNat 8 x.val <<< 4) ||| (BitVec.ofNat 8 y.val <<< 2) ||| BitVec.ofNat 8 z.val
    classify b = .diff ∧ field 5 4 b = x.val ∧ field 3 2 b = y.val ∧ field 1 0 b = z.val := by
  revert x y z; decide

theorem luma_byte0 (x : Fin 64) :
    classify (0x80 ||| BitVec.ofNat 8 x.val) = .luma ∧ field 5 0 (0x80 ||| BitVec.ofNat 8 x.val) = x.val := by
  revert x; decide

theorem luma_byte1 (x y : Fin 16) :
    let b : Byte := (BitVec.ofNat 8 x.val <<< 4) ||| BitVec.ofNat 8 y.val
    field 7 4 b = x.val ∧ field 3 0 b = y.val := by
  revert x y; decide

theorem run_byte (n : Fin 62) :
    classify (0xC0 ||| BitVec.ofNat 8 n.val) = .run ∧ field 5 0 (0xC0 ||| BitVec.ofNat 8 n.val) = n.val := by
  revert n; decide

/-- A RUN field is at most 61: 62 and 63 are the literals (R77, R80). -/
theorem run_field_le (b : Byte) (h : classify b = .run) : field 5 0 b ≤ 61 := by
  revert b; decide

theorem field_lt (hi lo : Nat) (b : Byte) : field hi lo b < 2 ^ (hi - lo + 1) :=
  (b.extractLsb hi lo).isLt

/-! ### The decoder, one lemma per kind -/

@[simp] theorem decode_nil : decode [] = .error .noOpcodeByte := rfl

theorem decode_rgb {b : Byte} (h : classify b = .rgb) (r g bl : Byte) (more : List Byte) :
    decode (b :: r :: g :: bl :: more) = .ok (.rgb r g bl, more) := by
  simp [decode, h]

theorem decode_rgba {b : Byte} (h : classify b = .rgba) (r g bl a : Byte) (more : List Byte) :
    decode (b :: r :: g :: bl :: a :: more) = .ok (.rgba r g bl a, more) := by
  simp [decode, h]

theorem decode_index {b : Byte} (h : classify b = .index) (more : List Byte) :
    decode (b :: more) = .ok (.index (Fin.ofNat 64 (field 5 0 b)), more) := by
  simp [decode, h]

theorem decode_diff {b : Byte} (h : classify b = .diff) (more : List Byte) :
    decode (b :: more)
      = .ok (.diff (unbias 2 (field 5 4 b)) (unbias 2 (field 3 2 b)) (unbias 2 (field 1 0 b)), more) := by
  simp [decode, h]

theorem decode_luma {b : Byte} (h : classify b = .luma) (b1 : Byte) (more : List Byte) :
    decode (b :: b1 :: more)
      = .ok (.luma (unbias 32 (field 5 0 b)) (unbias 8 (field 7 4 b1)) (unbias 8 (field 3 0 b1)), more) := by
  simp [decode, h]

theorem decode_run {b : Byte} (h : classify b = .run) (more : List Byte) :
    decode (b :: more) = .ok (.run (field 5 0 b + 1), more) := by
  simp [decode, h]

/-- A list that holds the unit of `b` whole decodes to a well-formed unit of `b`'s kind, and leaves what follows it
(R79, R80, R81). -/
theorem decode_full {b : Byte} {rest : List Byte} (h : unitLen (classify b) ≤ rest.length + 1) :
    ∃ i, decode (b :: rest) = .ok (i, rest.drop (unitLen (classify b) - 1)) ∧ i.kind = classify b ∧ i.wf = true := by
  cases hk : classify b with
  | rgb =>
    match rest, hk ▸ h with
    | r :: g :: bl :: more, _ => exact ⟨_, decode_rgb hk r g bl more, rfl, rfl⟩
  | rgba =>
    match rest, hk ▸ h with
    | r :: g :: bl :: a :: more, _ => exact ⟨_, decode_rgba hk r g bl a more, rfl, rfl⟩
  | index => exact ⟨_, decode_index hk rest, rfl, rfl⟩
  | diff =>
    refine ⟨_, decode_diff hk rest, rfl, ?_⟩
    have h1 := field_lt 5 4 b
    have h2 := field_lt 3 2 b
    have h3 := field_lt 1 0 b
    simp only [Instr.wf, Bool.and_eq_true, inRange_iff, unbias]
    omega
  | luma =>
    match rest, hk ▸ h with
    | b1 :: more, _ =>
      refine ⟨_, decode_luma hk b1 more, rfl, ?_⟩
      have h1 := field_lt 5 0 b
      have h2 := field_lt 7 4 b1
      have h3 := field_lt 3 0 b1
      simp only [Instr.wf, Bool.and_eq_true, inRange_iff, unbias]
      omega
  | run =>
    refine ⟨_, decode_run hk rest, rfl, ?_⟩
    have := run_field_le b hk
    simp only [Instr.wf, inRange_iff]
    omega

/-! ### The encoder -/

/-- A DIFF byte as its raw fields. -/
theorem encode_diff_raw {dr dg db : Int} (h : (Instr.diff dr dg db).wf = true) :
    ∃ x y z : Fin 4, encode (.diff dr dg db)
        = [0x40 ||| (BitVec.ofNat 8 x.val <<< 4) ||| (BitVec.ofNat 8 y.val <<< 2) ||| BitVec.ofNat 8 z.val]
      ∧ unbias 2 x.val = dr ∧ unbias 2 y.val = dg ∧ unbias 2 z.val = db := by
  simp only [Instr.wf, Bool.and_eq_true, inRange_iff] at h
  obtain ⟨⟨⟨h1, h2⟩, h3, h4⟩, h5, h6⟩ := h
  refine ⟨⟨(dr + 2).toNat, by omega⟩, ⟨(dg + 2).toNat, by omega⟩, ⟨(db + 2).toNat, by omega⟩, ?_,
    unbias_toNat (bias := 2) (by omega), unbias_toNat (bias := 2) (by omega), unbias_toNat (bias := 2) (by omega)⟩
  rw [encode, rebias_eq (by omega), rebias_eq (by omega), rebias_eq (by omega)]
  rfl

/-- A LUMA unit's bytes as their raw fields. -/
theorem encode_luma_raw {dg drdg dbdg : Int} (h : (Instr.luma dg drdg dbdg).wf = true) :
    ∃ (x : Fin 64) (y z : Fin 16), encode (.luma dg drdg dbdg)
        = [0x80 ||| BitVec.ofNat 8 x.val, (BitVec.ofNat 8 y.val <<< 4) ||| BitVec.ofNat 8 z.val]
      ∧ unbias 32 x.val = dg ∧ unbias 8 y.val = drdg ∧ unbias 8 z.val = dbdg := by
  simp only [Instr.wf, Bool.and_eq_true, inRange_iff] at h
  obtain ⟨⟨⟨h1, h2⟩, h3, h4⟩, h5, h6⟩ := h
  refine ⟨⟨(dg + 32).toNat, by omega⟩, ⟨(drdg + 8).toNat, by omega⟩, ⟨(dbdg + 8).toNat, by omega⟩, ?_,
    unbias_toNat (bias := 32) (by omega), unbias_toNat (bias := 8) (by omega), unbias_toNat (bias := 8) (by omega)⟩
  rw [encode, rebias_eq (by omega), rebias_eq (by omega), rebias_eq (by omega)]
  rfl

/-- A RUN byte as its raw field. -/
theorem encode_run_raw {n : Nat} (h : (Instr.run n).wf = true) :
    ∃ x : Fin 62, encode (.run n) = [0xC0 ||| BitVec.ofNat 8 x.val] ∧ x.val + 1 = n := by
  simp only [Instr.wf, inRange_iff] at h
  exact ⟨⟨n - 1, by omega⟩, rfl, by show n - 1 + 1 = n; omega⟩

end Sys2Proof
end

