-- ==== Sys2Proof/Laws/State.lean ====
section
/-! SUPPORT. One lemma per field per named update of State, each true by rfl, so that no proof unfolds a record update. -/

namespace Sys2Proof.Machine

@[simp] theorem raise_phase (k : ErrKind) (off : Nat) (s : State) : (raise k off s).phase = .error := rfl
@[simp] theorem raise_l (k : ErrKind) (off : Nat) (s : State) : (raise k off s).l = s.l := rfl
@[simp] theorem raise_w (k : ErrKind) (off : Nat) (s : State) : (raise k off s).w = s.w := rfl
@[simp] theorem raise_h (k : ErrKind) (off : Nat) (s : State) : (raise k off s).h = s.h := rfl
@[simp] theorem raise_c (k : ErrKind) (off : Nat) (s : State) : (raise k off s).c = s.c := rfl
@[simp] theorem raise_cs (k : ErrKind) (off : Nat) (s : State) : (raise k off s).cs = s.cs := rfl
@[simp] theorem raise_iptr (k : ErrKind) (off : Nat) (s : State) : (raise k off s).iptr = s.iptr := rfl
@[simp] theorem raise_opix (k : ErrKind) (off : Nat) (s : State) : (raise k off s).opix = s.opix := rfl
@[simp] theorem raise_prev (k : ErrKind) (off : Nat) (s : State) : (raise k off s).prev = s.prev := rfl
@[simp] theorem raise_cache (k : ErrKind) (off : Nat) (s : State) : (raise k off s).cache = s.cache := rfl
@[simp] theorem raise_errKind (k : ErrKind) (off : Nat) (s : State) : (raise k off s).errKind = k := rfl
@[simp] theorem raise_errOff (k : ErrKind) (off : Nat) (s : State) : (raise k off s).errOff = off := rfl
@[simp] theorem raise_inMem (k : ErrKind) (off : Nat) (s : State) : (raise k off s).inMem = s.inMem := rfl
@[simp] theorem raise_outMem (k : ErrKind) (off : Nat) (s : State) : (raise k off s).outMem = s.outMem := rfl
@[simp] theorem raise_params (k : ErrKind) (off : Nat) (s : State) : (raise k off s).params = s.params := rfl
@[simp] theorem raise_host (k : ErrKind) (off : Nat) (s : State) : (raise k off s).host = s.host := rfl
@[simp] theorem raise_pixelCount (k : ErrKind) (off : Nat) (s : State) : (raise k off s).pixelCount = s.pixelCount := rfl
@[simp] theorem raise_outSize (k : ErrKind) (off : Nat) (s : State) : (raise k off s).outSize = s.outSize := rfl

@[simp] theorem startDecode_phase (len : Nat) (s : State) : (startDecode len s).phase = .header := rfl
@[simp] theorem startDecode_l (len : Nat) (s : State) : (startDecode len s).l = len := rfl
@[simp] theorem startDecode_w (len : Nat) (s : State) : (startDecode len s).w = 0 := rfl
@[simp] theorem startDecode_h (len : Nat) (s : State) : (startDecode len s).h = 0 := rfl
@[simp] theorem startDecode_c (len : Nat) (s : State) : (startDecode len s).c = 0 := rfl
@[simp] theorem startDecode_cs (len : Nat) (s : State) : (startDecode len s).cs = 0 := rfl
@[simp] theorem startDecode_iptr (len : Nat) (s : State) : (startDecode len s).iptr = 0 := rfl
@[simp] theorem startDecode_opix (len : Nat) (s : State) : (startDecode len s).opix = 0 := rfl
@[simp] theorem startDecode_prev (len : Nat) (s : State) : (startDecode len s).prev = Pixel.prev0 := rfl
@[simp] theorem startDecode_cache (len : Nat) (s : State) : (startDecode len s).cache = Vector.replicate 64 Pixel.zero := rfl
@[simp] theorem startDecode_errKind (len : Nat) (s : State) : (startDecode len s).errKind = .noError := rfl
@[simp] theorem startDecode_errOff (len : Nat) (s : State) : (startDecode len s).errOff = 0 := rfl
@[simp] theorem startDecode_inMem (len : Nat) (s : State) : (startDecode len s).inMem = s.inMem := rfl
@[simp] theorem startDecode_outMem (len : Nat) (s : State) : (startDecode len s).outMem = [] := rfl
@[simp] theorem startDecode_params (len : Nat) (s : State) : (startDecode len s).params = s.params := rfl
@[simp] theorem startDecode_host (len : Nat) (s : State) : (startDecode len s).host = s.host := rfl

@[simp] theorem abortDecode_phase (s : State) : (abortDecode s).phase = .idle := rfl
@[simp] theorem abortDecode_l (s : State) : (abortDecode s).l = s.l := rfl
@[simp] theorem abortDecode_w (s : State) : (abortDecode s).w = s.w := rfl
@[simp] theorem abortDecode_h (s : State) : (abortDecode s).h = s.h := rfl
@[simp] theorem abortDecode_c (s : State) : (abortDecode s).c = s.c := rfl
@[simp] theorem abortDecode_cs (s : State) : (abortDecode s).cs = s.cs := rfl
@[simp] theorem abortDecode_iptr (s : State) : (abortDecode s).iptr = s.iptr := rfl
@[simp] theorem abortDecode_opix (s : State) : (abortDecode s).opix = s.opix := rfl
@[simp] theorem abortDecode_prev (s : State) : (abortDecode s).prev = s.prev := rfl
@[simp] theorem abortDecode_cache (s : State) : (abortDecode s).cache = s.cache := rfl
@[simp] theorem abortDecode_errKind (s : State) : (abortDecode s).errKind = s.errKind := rfl
@[simp] theorem abortDecode_errOff (s : State) : (abortDecode s).errOff = s.errOff := rfl
@[simp] theorem abortDecode_inMem (s : State) : (abortDecode s).inMem = s.inMem := rfl
@[simp] theorem abortDecode_outMem (s : State) : (abortDecode s).outMem = s.outMem := rfl
@[simp] theorem abortDecode_params (s : State) : (abortDecode s).params = s.params := rfl
@[simp] theorem abortDecode_host (s : State) : (abortDecode s).host = s.host := rfl
@[simp] theorem abortDecode_pixelCount (s : State) : (abortDecode s).pixelCount = s.pixelCount := rfl
@[simp] theorem abortDecode_outSize (s : State) : (abortDecode s).outSize = s.outSize := rfl

@[simp] theorem resetBlock_phase (s : State) : (resetBlock s).phase = .idle := rfl
@[simp] theorem resetBlock_l (s : State) : (resetBlock s).l = 0 := rfl
@[simp] theorem resetBlock_w (s : State) : (resetBlock s).w = 0 := rfl
@[simp] theorem resetBlock_h (s : State) : (resetBlock s).h = 0 := rfl
@[simp] theorem resetBlock_c (s : State) : (resetBlock s).c = 0 := rfl
@[simp] theorem resetBlock_cs (s : State) : (resetBlock s).cs = 0 := rfl
@[simp] theorem resetBlock_iptr (s : State) : (resetBlock s).iptr = 0 := rfl
@[simp] theorem resetBlock_opix (s : State) : (resetBlock s).opix = 0 := rfl
@[simp] theorem resetBlock_prev (s : State) : (resetBlock s).prev = Pixel.prev0 := rfl
@[simp] theorem resetBlock_cache (s : State) : (resetBlock s).cache = Vector.replicate 64 Pixel.zero := rfl
@[simp] theorem resetBlock_errKind (s : State) : (resetBlock s).errKind = .noError := rfl
@[simp] theorem resetBlock_errOff (s : State) : (resetBlock s).errOff = 0 := rfl
@[simp] theorem resetBlock_inMem (s : State) : (resetBlock s).inMem = s.inMem := rfl
@[simp] theorem resetBlock_outMem (s : State) : (resetBlock s).outMem = [] := rfl
@[simp] theorem resetBlock_params (s : State) : (resetBlock s).params = s.params := rfl
@[simp] theorem resetBlock_host (s : State) : (resetBlock s).host = s.host := rfl

@[simp] theorem placeInput_phase (off : Nat) (bs : List Byte) (s : State) : (placeInput off bs s).phase = s.phase := rfl
@[simp] theorem placeInput_l (off : Nat) (bs : List Byte) (s : State) : (placeInput off bs s).l = s.l := rfl
@[simp] theorem placeInput_w (off : Nat) (bs : List Byte) (s : State) : (placeInput off bs s).w = s.w := rfl
@[simp] theorem placeInput_h (off : Nat) (bs : List Byte) (s : State) : (placeInput off bs s).h = s.h := rfl
@[simp] theorem placeInput_c (off : Nat) (bs : List Byte) (s : State) : (placeInput off bs s).c = s.c := rfl
@[simp] theorem placeInput_cs (off : Nat) (bs : List Byte) (s : State) : (placeInput off bs s).cs = s.cs := rfl
@[simp] theorem placeInput_iptr (off : Nat) (bs : List Byte) (s : State) : (placeInput off bs s).iptr = s.iptr := rfl
@[simp] theorem placeInput_opix (off : Nat) (bs : List Byte) (s : State) : (placeInput off bs s).opix = s.opix := rfl
@[simp] theorem placeInput_prev (off : Nat) (bs : List Byte) (s : State) : (placeInput off bs s).prev = s.prev := rfl
@[simp] theorem placeInput_cache (off : Nat) (bs : List Byte) (s : State) : (placeInput off bs s).cache = s.cache := rfl
@[simp] theorem placeInput_errKind (off : Nat) (bs : List Byte) (s : State) : (placeInput off bs s).errKind = s.errKind := rfl
@[simp] theorem placeInput_errOff (off : Nat) (bs : List Byte) (s : State) : (placeInput off bs s).errOff = s.errOff := rfl
@[simp] theorem placeInput_inMem (off : Nat) (bs : List Byte) (s : State) : (placeInput off bs s).inMem = Memory.writeBytes s.inMem off bs := rfl
@[simp] theorem placeInput_outMem (off : Nat) (bs : List Byte) (s : State) : (placeInput off bs s).outMem = s.outMem := rfl
@[simp] theorem placeInput_params (off : Nat) (bs : List Byte) (s : State) : (placeInput off bs s).params = s.params := rfl
@[simp] theorem placeInput_host (off : Nat) (bs : List Byte) (s : State) : (placeInput off bs s).host = s.host := rfl
@[simp] theorem placeInput_pixelCount (off : Nat) (bs : List Byte) (s : State) : (placeInput off bs s).pixelCount = s.pixelCount := rfl
@[simp] theorem placeInput_outSize (off : Nat) (bs : List Byte) (s : State) : (placeInput off bs s).outSize = s.outSize := rfl

@[simp] theorem cacheUpdate_phase (p : Pixel) (s : State) : (cacheUpdate p s).phase = s.phase := rfl
@[simp] theorem cacheUpdate_l (p : Pixel) (s : State) : (cacheUpdate p s).l = s.l := rfl
@[simp] theorem cacheUpdate_w (p : Pixel) (s : State) : (cacheUpdate p s).w = s.w := rfl
@[simp] theorem cacheUpdate_h (p : Pixel) (s : State) : (cacheUpdate p s).h = s.h := rfl
@[simp] theorem cacheUpdate_c (p : Pixel) (s : State) : (cacheUpdate p s).c = s.c := rfl
@[simp] theorem cacheUpdate_cs (p : Pixel) (s : State) : (cacheUpdate p s).cs = s.cs := rfl
@[simp] theorem cacheUpdate_iptr (p : Pixel) (s : State) : (cacheUpdate p s).iptr = s.iptr := rfl
@[simp] theorem cacheUpdate_opix (p : Pixel) (s : State) : (cacheUpdate p s).opix = s.opix := rfl
@[simp] theorem cacheUpdate_prev (p : Pixel) (s : State) : (cacheUpdate p s).prev = s.prev := rfl
@[simp] theorem cacheUpdate_cache (p : Pixel) (s : State) : (cacheUpdate p s).cache = s.cache.set (pixelHash p).val p (pixelHash p).isLt := rfl
@[simp] theorem cacheUpdate_errKind (p : Pixel) (s : State) : (cacheUpdate p s).errKind = s.errKind := rfl
@[simp] theorem cacheUpdate_errOff (p : Pixel) (s : State) : (cacheUpdate p s).errOff = s.errOff := rfl
@[simp] theorem cacheUpdate_inMem (p : Pixel) (s : State) : (cacheUpdate p s).inMem = s.inMem := rfl
@[simp] theorem cacheUpdate_outMem (p : Pixel) (s : State) : (cacheUpdate p s).outMem = s.outMem := rfl
@[simp] theorem cacheUpdate_params (p : Pixel) (s : State) : (cacheUpdate p s).params = s.params := rfl
@[simp] theorem cacheUpdate_host (p : Pixel) (s : State) : (cacheUpdate p s).host = s.host := rfl
@[simp] theorem cacheUpdate_pixelCount (p : Pixel) (s : State) : (cacheUpdate p s).pixelCount = s.pixelCount := rfl
@[simp] theorem cacheUpdate_outSize (p : Pixel) (s : State) : (cacheUpdate p s).outSize = s.outSize := rfl

@[simp] theorem advance_phase (len : Nat) (s : State) : (advance len s).phase = s.phase := rfl
@[simp] theorem advance_l (len : Nat) (s : State) : (advance len s).l = s.l := rfl
@[simp] theorem advance_w (len : Nat) (s : State) : (advance len s).w = s.w := rfl
@[simp] theorem advance_h (len : Nat) (s : State) : (advance len s).h = s.h := rfl
@[simp] theorem advance_c (len : Nat) (s : State) : (advance len s).c = s.c := rfl
@[simp] theorem advance_cs (len : Nat) (s : State) : (advance len s).cs = s.cs := rfl
@[simp] theorem advance_iptr (len : Nat) (s : State) : (advance len s).iptr = s.iptr + len := rfl
@[simp] theorem advance_opix (len : Nat) (s : State) : (advance len s).opix = s.opix := rfl
@[simp] theorem advance_prev (len : Nat) (s : State) : (advance len s).prev = s.prev := rfl
@[simp] theorem advance_cache (len : Nat) (s : State) : (advance len s).cache = s.cache := rfl
@[simp] theorem advance_errKind (len : Nat) (s : State) : (advance len s).errKind = s.errKind := rfl
@[simp] theorem advance_errOff (len : Nat) (s : State) : (advance len s).errOff = s.errOff := rfl
@[simp] theorem advance_inMem (len : Nat) (s : State) : (advance len s).inMem = s.inMem := rfl
@[simp] theorem advance_outMem (len : Nat) (s : State) : (advance len s).outMem = s.outMem := rfl
@[simp] theorem advance_params (len : Nat) (s : State) : (advance len s).params = s.params := rfl
@[simp] theorem advance_host (len : Nat) (s : State) : (advance len s).host = s.host := rfl
@[simp] theorem advance_pixelCount (len : Nat) (s : State) : (advance len s).pixelCount = s.pixelCount := rfl
@[simp] theorem advance_outSize (len : Nat) (s : State) : (advance len s).outSize = s.outSize := rfl

@[simp] theorem terminate_phase (s : State) : (terminate s).phase = if s.opix = s.pixelCount then .done else s.phase := rfl
@[simp] theorem terminate_l (s : State) : (terminate s).l = s.l := rfl
@[simp] theorem terminate_w (s : State) : (terminate s).w = s.w := rfl
@[simp] theorem terminate_h (s : State) : (terminate s).h = s.h := rfl
@[simp] theorem terminate_c (s : State) : (terminate s).c = s.c := rfl
@[simp] theorem terminate_cs (s : State) : (terminate s).cs = s.cs := rfl
@[simp] theorem terminate_iptr (s : State) : (terminate s).iptr = s.iptr := rfl
@[simp] theorem terminate_opix (s : State) : (terminate s).opix = s.opix := rfl
@[simp] theorem terminate_prev (s : State) : (terminate s).prev = s.prev := rfl
@[simp] theorem terminate_cache (s : State) : (terminate s).cache = s.cache := rfl
@[simp] theorem terminate_errKind (s : State) : (terminate s).errKind = s.errKind := rfl
@[simp] theorem terminate_errOff (s : State) : (terminate s).errOff = s.errOff := rfl
@[simp] theorem terminate_inMem (s : State) : (terminate s).inMem = s.inMem := rfl
@[simp] theorem terminate_outMem (s : State) : (terminate s).outMem = s.outMem := rfl
@[simp] theorem terminate_params (s : State) : (terminate s).params = s.params := rfl
@[simp] theorem terminate_host (s : State) : (terminate s).host = s.host := rfl
@[simp] theorem terminate_pixelCount (s : State) : (terminate s).pixelCount = s.pixelCount := rfl
@[simp] theorem terminate_outSize (s : State) : (terminate s).outSize = s.outSize := rfl

@[simp] theorem commitHeader_phase (w h : Dim) (c cs : Byte) (s : State) : (commitHeader w h c cs s).phase = .stream := rfl
@[simp] theorem commitHeader_l (w h : Dim) (c cs : Byte) (s : State) : (commitHeader w h c cs s).l = s.l := rfl
@[simp] theorem commitHeader_w (w h : Dim) (c cs : Byte) (s : State) : (commitHeader w h c cs s).w = w := rfl
@[simp] theorem commitHeader_h (w h : Dim) (c cs : Byte) (s : State) : (commitHeader w h c cs s).h = h := rfl
@[simp] theorem commitHeader_c (w h : Dim) (c cs : Byte) (s : State) : (commitHeader w h c cs s).c = c := rfl
@[simp] theorem commitHeader_cs (w h : Dim) (c cs : Byte) (s : State) : (commitHeader w h c cs s).cs = cs := rfl
@[simp] theorem commitHeader_iptr (w h : Dim) (c cs : Byte) (s : State) : (commitHeader w h c cs s).iptr = 14 := rfl
@[simp] theorem commitHeader_opix (w h : Dim) (c cs : Byte) (s : State) : (commitHeader w h c cs s).opix = s.opix := rfl
@[simp] theorem commitHeader_prev (w h : Dim) (c cs : Byte) (s : State) : (commitHeader w h c cs s).prev = s.prev := rfl
@[simp] theorem commitHeader_cache (w h : Dim) (c cs : Byte) (s : State) : (commitHeader w h c cs s).cache = s.cache := rfl
@[simp] theorem commitHeader_errKind (w h : Dim) (c cs : Byte) (s : State) : (commitHeader w h c cs s).errKind = s.errKind := rfl
@[simp] theorem commitHeader_errOff (w h : Dim) (c cs : Byte) (s : State) : (commitHeader w h c cs s).errOff = s.errOff := rfl
@[simp] theorem commitHeader_inMem (w h : Dim) (c cs : Byte) (s : State) : (commitHeader w h c cs s).inMem = s.inMem := rfl
@[simp] theorem commitHeader_outMem (w h : Dim) (c cs : Byte) (s : State) : (commitHeader w h c cs s).outMem = s.outMem := rfl
@[simp] theorem commitHeader_params (w h : Dim) (c cs : Byte) (s : State) : (commitHeader w h c cs s).params = s.params := rfl
@[simp] theorem commitHeader_host (w h : Dim) (c cs : Byte) (s : State) : (commitHeader w h c cs s).host = s.host := rfl

@[simp] theorem emitted_phase (m : Memory) (p : Pixel) (s : State) : (emitted m p s).phase = s.phase := rfl
@[simp] theorem emitted_l (m : Memory) (p : Pixel) (s : State) : (emitted m p s).l = s.l := rfl
@[simp] theorem emitted_w (m : Memory) (p : Pixel) (s : State) : (emitted m p s).w = s.w := rfl
@[simp] theorem emitted_h (m : Memory) (p : Pixel) (s : State) : (emitted m p s).h = s.h := rfl
@[simp] theorem emitted_c (m : Memory) (p : Pixel) (s : State) : (emitted m p s).c = s.c := rfl
@[simp] theorem emitted_cs (m : Memory) (p : Pixel) (s : State) : (emitted m p s).cs = s.cs := rfl
@[simp] theorem emitted_iptr (m : Memory) (p : Pixel) (s : State) : (emitted m p s).iptr = s.iptr := rfl
@[simp] theorem emitted_opix (m : Memory) (p : Pixel) (s : State) : (emitted m p s).opix = s.opix + 1 := rfl
@[simp] theorem emitted_prev (m : Memory) (p : Pixel) (s : State) : (emitted m p s).prev = p := rfl
@[simp] theorem emitted_cache (m : Memory) (p : Pixel) (s : State) : (emitted m p s).cache = s.cache := rfl
@[simp] theorem emitted_errKind (m : Memory) (p : Pixel) (s : State) : (emitted m p s).errKind = s.errKind := rfl
@[simp] theorem emitted_errOff (m : Memory) (p : Pixel) (s : State) : (emitted m p s).errOff = s.errOff := rfl
@[simp] theorem emitted_inMem (m : Memory) (p : Pixel) (s : State) : (emitted m p s).inMem = s.inMem := rfl
@[simp] theorem emitted_outMem (m : Memory) (p : Pixel) (s : State) : (emitted m p s).outMem = m := rfl
@[simp] theorem emitted_params (m : Memory) (p : Pixel) (s : State) : (emitted m p s).params = s.params := rfl
@[simp] theorem emitted_host (m : Memory) (p : Pixel) (s : State) : (emitted m p s).host = s.host := rfl
@[simp] theorem emitted_pixelCount (m : Memory) (p : Pixel) (s : State) : (emitted m p s).pixelCount = s.pixelCount := rfl
@[simp] theorem emitted_outSize (m : Memory) (p : Pixel) (s : State) : (emitted m p s).outSize = s.outSize := rfl

end Sys2Proof.Machine
end

