-- ==== Sys2Proof/Laws/Memory.lean ====
section
/-! SUPPORT. The laws of byte memories: reads after writes, the canonical form kept by every operation, and which
addresses are listed. -/

namespace Sys2Proof.Machine

@[simp] theorem Memory.read_nil (a : Nat) : Memory.read [] a = none := rfl

/-- A listed address reads as its byte: the listed addresses are those with a value. -/
theorem Memory.read_isSome_iff (m : Memory) (a : Nat) :
    (Memory.read m a).isSome = true ↔ a ∈ m.map Prod.fst := by
  induction m with
  | nil => simp
  | cons x rest ih =>
    obtain ⟨k, v⟩ := x
    by_cases h : k = a
    · simp [Memory.read, h]
    · simp only [Memory.read, h, if_false, ih, List.map_cons, List.mem_cons]
      exact ⟨Or.inr, fun o => o.resolve_left (Ne.symm h)⟩

theorem Memory.read_write (m : Memory) (a x : Nat) (v : Byte) :
    Memory.read (Memory.write m a v) x = if x = a then some v else Memory.read m x := by
  induction m with
  | nil => simp [Memory.write, Memory.read, eq_comm]
  | cons y rest ih =>
    obtain ⟨k, u⟩ := y
    by_cases h1 : a < k
    · by_cases hx : x = a <;> simp [Memory.write, Memory.read, h1, hx, eq_comm]
      exact fun h => absurd h (Ne.symm hx)
    · by_cases h2 : a = k
      · subst h2
        by_cases hx : x = a <;> simp [Memory.write, Memory.read, hx]
        split <;> simp_all
      · by_cases hx : x = a
        · subst hx
          simp [Memory.write, Memory.read, h1, h2, ih, Ne.symm h2]
        · simp [Memory.write, Memory.read, h1, h2, ih, hx]

@[simp] theorem Memory.read_write_same (m : Memory) (a : Nat) (v : Byte) :
    Memory.read (Memory.write m a v) a = some v := by
  simp [Memory.read_write]

theorem Memory.read_write_other (m : Memory) {a x : Nat} (v : Byte) (h : x ≠ a) :
    Memory.read (Memory.write m a v) x = Memory.read m x := by
  simp [Memory.read_write, h]

theorem Memory.mem_keys_write (m : Memory) (a x : Nat) (v : Byte) :
    x ∈ (Memory.write m a v).map Prod.fst ↔ x = a ∨ x ∈ m.map Prod.fst := by
  rw [← Memory.read_isSome_iff, ← Memory.read_isSome_iff, Memory.read_write]
  by_cases h : x = a <;> simp [h]

theorem Memory.write_wf {m : Memory} (h : Memory.wf m) (a : Nat) (v : Byte) :
    Memory.wf (Memory.write m a v) := by
  induction m with
  | nil => simp [Memory.wf, Memory.write]
  | cons y rest ih =>
    obtain ⟨k, u⟩ := y
    simp only [Memory.wf, List.map_cons, List.pairwise_cons] at h ih
    by_cases h1 : a < k
    · simp only [Memory.wf, Memory.write, h1, if_true, List.map_cons, List.pairwise_cons, List.mem_cons]
      exact ⟨fun b hb => hb.elim (· ▸ h1) fun hb => h1.trans (h.1 b hb), h⟩
    · by_cases h2 : a = k
      · subst h2
        simpa [Memory.wf, Memory.write] using h
      · simp only [Memory.wf, Memory.write, h1, h2, if_false, List.map_cons, List.pairwise_cons]
        refine ⟨fun b hb => ?_, ih h.2⟩
        rcases (Memory.mem_keys_write rest a b v).mp hb with rfl | hb
        · omega
        · exact h.1 b hb

@[simp] theorem Memory.writeBytes_nil (m : Memory) (a : Nat) : Memory.writeBytes m a [] = m := rfl

@[simp] theorem Memory.writeBytes_cons (m : Memory) (a : Nat) (v : Byte) (vs : List Byte) :
    Memory.writeBytes m a (v :: vs) = Memory.writeBytes (Memory.write m a v) (a + 1) vs := rfl

theorem Memory.writeBytes_append (m : Memory) (a : Nat) (xs ys : List Byte) :
    Memory.writeBytes m a (xs ++ ys) = Memory.writeBytes (Memory.writeBytes m a xs) (a + xs.length) ys := by
  induction xs generalizing m a with
  | nil => rfl
  | cons x xs ih => simp [ih, Nat.add_assoc, Nat.add_comm 1]

theorem Memory.writeBytes_wf {m : Memory} (h : Memory.wf m) (a : Nat) (vs : List Byte) :
    Memory.wf (Memory.writeBytes m a vs) := by
  induction vs generalizing m a with
  | nil => exact h
  | cons v vs ih => exact ih (Memory.write_wf h a v) (a + 1)

/-- Inside the written range the written byte is read, outside it what was there before. -/
theorem Memory.read_writeBytes (m : Memory) (a x : Nat) (vs : List Byte) :
    Memory.read (Memory.writeBytes m a vs) x
      = if a ≤ x ∧ x < a + vs.length then vs[x - a]? else Memory.read m x := by
  induction vs generalizing m a with
  | nil => simp
  | cons v vs ih =>
    rw [Memory.writeBytes_cons, ih, Memory.read_write]
    by_cases hx : x = a
    · subst hx; simp
    · simp only [hx, if_false, List.length_cons]
      by_cases h : a + 1 ≤ x ∧ x < a + 1 + vs.length
      · rw [if_pos h, if_pos (by omega), show x - a = (x - (a + 1)) + 1 by omega, List.getElem?_cons_succ]
      · rw [if_neg h, if_neg (by omega)]

theorem Memory.read_writeBytes_outside (m : Memory) {a x : Nat} (vs : List Byte)
    (h : x < a ∨ a + vs.length ≤ x) : Memory.read (Memory.writeBytes m a vs) x = Memory.read m x := by
  rw [Memory.read_writeBytes, if_neg (by omega)]

theorem Memory.mem_keys_writeBytes (m : Memory) (a x : Nat) (vs : List Byte) :
    x ∈ (Memory.writeBytes m a vs).map Prod.fst ↔ (a ≤ x ∧ x < a + vs.length) ∨ x ∈ m.map Prod.fst := by
  induction vs generalizing m a with
  | nil => simp
  | cons v vs ih =>
    rw [Memory.writeBytes_cons, ih, Memory.mem_keys_write]
    simp only [List.length_cons]
    constructor
    · rintro (h | rfl | h)
      · exact Or.inl (by omega)
      · exact Or.inl (by omega)
      · exact Or.inr h
    · rintro (h | h)
      · by_cases hx : x = a
        · exact Or.inr (Or.inl hx)
        · exact Or.inl (by omega)
      · exact Or.inr (Or.inr h)

theorem Memory.resident_writeBytes {m : Memory} {n : Nat} (h : Memory.resident m n) (a : Nat) (vs : List Byte) :
    Memory.resident (Memory.writeBytes m a vs) n := by
  intro x hx
  rw [Memory.read_isSome_iff, Memory.mem_keys_writeBytes]
  exact Or.inr ((Memory.read_isSome_iff m x).mp (h x hx))

/-- Writing right past the listed addresses `0 .. n-1` lists `n` too. -/
theorem Memory.keys_write_end {m : Memory} {n : Nat} (h : m.map Prod.fst = List.range n) (v : Byte) :
    (Memory.write m n v).map Prod.fst = List.range (n + 1) := by
  have hw : Memory.wf m := by rw [Memory.wf, h]; exact List.pairwise_lt_range
  have h1 := Memory.write_wf hw n v
  refine List.Perm.eq_of_pairwise (le := (· < ·)) (fun a b _ _ p q => absurd p (by omega)) h1
    List.pairwise_lt_range ?_
  refine (List.perm_ext_iff_of_nodup (h1.imp fun hab => Nat.ne_of_lt hab) List.nodup_range).mpr fun x => ?_
  rw [Memory.mem_keys_write, h]
  simp only [List.mem_range]
  omega

theorem Memory.keys_writeBytes_end {m : Memory} {n : Nat} (h : m.map Prod.fst = List.range n) (vs : List Byte) :
    (Memory.writeBytes m n vs).map Prod.fst = List.range (n + vs.length) := by
  induction vs generalizing m n with
  | nil => simpa using h
  | cons v vs ih =>
    rw [Memory.writeBytes_cons, ih (Memory.keys_write_end h v), List.length_cons]
    congr 1
    omega

/-- Every memory that a wf list of cells lists keeps its cells below a bound when the write does. -/
theorem Memory.bound_writeBytes {m : Memory} {n a : Nat} {vs : List Byte} (h : ∀ x ∈ m, x.1 < n)
    (hv : a + vs.length ≤ n) : ∀ x ∈ Memory.writeBytes m a vs, x.1 < n := by
  intro x hx
  have := (Memory.mem_keys_writeBytes m a x.1 vs).mp (List.mem_map_of_mem hx)
  rcases this with h1 | h1
  · omega
  · obtain ⟨y, hy, e⟩ := List.mem_map.mp h1
    exact e ▸ h y hy

end Sys2Proof.Machine
end

