-- ==== Sys2Proof/Laws/Ops.lean ====
section
/-! SUPPORT. For each shared operation one lemma that says everything it can do; proofs cite these and do not unfold the
operations. -/

namespace Sys2Proof.Machine

/-! ### Outcomes -/

@[simp] theorem andThen_next {α β : Type} (x : α) (f : α → Host.Outcome β Fault Refusal) :
    andThen (.next x) f = f x := rfl

@[simp] theorem andThen_fault {α β : Type} (e : Fault) (f : α → Host.Outcome β Fault Refusal) :
    andThen (.fault e) f = .fault e := rfl

@[simp] theorem andThen_refused {α β : Type} (e : Refusal) (f : α → Host.Outcome β Fault Refusal) :
    andThen (.refused e) f = .refused e := rfl

theorem andThen_eq_next {α β : Type} {o : Host.Outcome α Fault Refusal} {f : α → Host.Outcome β Fault Refusal}
    {y : β} : andThen o f = .next y ↔ ∃ x, o = .next x ∧ f x = .next y := by
  cases o <;> simp

/-! ### Reads of IN -/

theorem readPlaced_eq_next {m : Memory} {a n : Nat} {bs : List Byte} :
    readPlaced m a n = .next bs ↔ bs.length = n ∧ ∀ k < n, Memory.read m (a + k) = bs[k]? := by
  induction n generalizing a bs with
  | zero =>
    simp only [readPlaced, Host.Outcome.next.injEq, Nat.not_lt_zero, false_implies, implies_true, and_true,
      List.length_eq_zero_iff]
    exact eq_comm
  | succ n ih =>
    cases hm : Memory.read m a with
    | none =>
      simp only [readPlaced, hm, reduceCtorEq, false_iff, not_and]
      intro hl h
      have := h 0 (by omega)
      rw [Nat.add_zero, hm] at this
      rw [eq_comm, List.getElem?_eq_none_iff] at this
      omega
    | some v =>
      simp only [readPlaced, hm, andThen_eq_next, ih, Host.Outcome.next.injEq]
      constructor
      · rintro ⟨vs, ⟨hl, h⟩, rfl⟩
        refine ⟨by simp [hl], fun k hk => ?_⟩
        cases k with
        | zero => simpa using hm
        | succ k => simpa [Nat.add_assoc, Nat.add_comm 1] using h k (by omega)
      · rintro ⟨hl, h⟩
        cases bs with
        | nil => simp at hl
        | cons b bs =>
          refine ⟨bs, ⟨by simpa using hl, fun k hk => ?_⟩, ?_⟩
          · simpa [Nat.add_assoc, Nat.add_comm 1] using h (k + 1) (by omega)
          · have h0 := h 0 (by omega)
            rw [Nat.add_zero, hm] at h0
            simp only [List.getElem?_cons_zero, Option.some.injEq] at h0
            rw [h0]

/-- What a MemRead answers (20_memory.md R51). -/
theorem memRead_eq_next {a n : Nat} {s : State} {bs : List Byte} :
    memRead a n s = .next bs
      ↔ a + n ≤ s.l ∧ bs.length = n ∧ ∀ k < n, Memory.read s.inMem (a + k) = bs[k]? := by
  by_cases h : a + n ≤ s.l <;> simp [memRead, h, readPlaced_eq_next]

/-- A MemRead inside a resident input answers. -/
theorem memRead_resident {a n : Nat} {s : State} (hr : Memory.resident s.inMem s.l) (h : a + n ≤ s.l) :
    ∃ bs, memRead a n s = .next bs ∧ bs.length = n ∧ ∀ k < n, Memory.read s.inMem (a + k) = bs[k]? := by
  refine ⟨(List.range n).map fun k => (Memory.read s.inMem (a + k)).getD 0, ?_⟩
  have hk : ∀ k < n, Memory.read s.inMem (a + k)
      = ((List.range n).map fun k => (Memory.read s.inMem (a + k)).getD 0)[k]? := by
    intro k hk
    have := hr (a + k) (by omega)
    obtain ⟨v, hv⟩ := Option.isSome_iff_exists.mp this
    simp [hk, hv]
  exact ⟨memRead_eq_next.mpr ⟨h, by simp, hk⟩, by simp, hk⟩

theorem inByte_eq_next {a : Nat} {s : State} {v : Byte} :
    inByte a s = .next v ↔ a < s.l ∧ Memory.read s.inMem a = some v := by
  by_cases h : s.l ≤ a
  · simp [inByte, h]
  · cases hm : Memory.read s.inMem a <;> simp [inByte, h, hm]
    omega

theorem inByte_resident {a : Nat} {s : State} (hr : Memory.resident s.inMem s.l) (h : a < s.l) :
    ∃ v, inByte a s = .next v ∧ Memory.read s.inMem a = some v := by
  obtain ⟨v, hv⟩ := Option.isSome_iff_exists.mp (hr a h)
  exact ⟨v, inByte_eq_next.mpr ⟨h, hv⟩, hv⟩

/-! ### The cache RAM -/

/-- A cache read after a cache write: the written entry is the pixel, every other is as before (41_stream_cycle.md R128). -/
theorem cacheRead_cacheUpdate (p : Pixel) (idx : Fin 64) (s : State) :
    cacheRead idx (cacheUpdate p s) = if idx = pixelHash p then p else cacheRead idx s := by
  obtain ⟨i, hi⟩ := idx
  simp only [cacheRead, Vector.get_eq_getElem, cacheUpdate_cache, Vector.getElem_set, Fin.ext_iff]
  by_cases h : (pixelHash p).val = i
  · simp [h]
  · simp [h, Ne.symm h]

theorem cacheRead_congr {s t : State} (h : s.cache = t.cache) (idx : Fin 64) : cacheRead idx s = cacheRead idx t := by
  simp [cacheRead, h]

@[simp] theorem cacheRead_replicate (idx : Fin 64) (p : Pixel) :
    (Vector.replicate 64 p).get idx = p := by
  simp [Vector.get_eq_getElem]

/-! ### The output buffer writer -/

/-- OUT after the pixels `k .. k+n-1` were written with `bs`, `c` bytes apart (20_memory.md R54). -/
def outAfter (c : Nat) (bs : List Byte) : Nat → Nat → Memory → Memory
  | 0, _, m => m
  | n + 1, k, m => outAfter c bs n (k + 1) (Memory.writeBytes m (k * c) bs)

/-- The state after `n` emits of one pixel. -/
def afterEmits (n : Nat) (p : Pixel) (s : State) : State :=
  { s with
    outMem := outAfter s.c.toNat (p.bytes.take s.c.toNat) n s.opix s.outMem
    opix := s.opix + n
    prev := if n = 0 then s.prev else p }

theorem pixel_bytes_le (p : Pixel) (n : Nat) : (p.bytes.take n).length ≤ n := by
  simp

/-- An emit that the image has room for writes inside OUT (41_stream_cycle.md R129; 20_memory.md R52). -/
theorem emit_eq {p : Pixel} {s : State} (h : s.opix < s.pixelCount) :
    emit p s
      = .next (emitted (Memory.writeBytes s.outMem (s.opix * s.c.toNat) (p.bytes.take s.c.toNat)) p s) := by
  have h1 : s.opix * s.c.toNat + (p.bytes.take s.c.toNat).length ≤ s.outSize := by
    have := pixel_bytes_le p s.c.toNat
    calc s.opix * s.c.toNat + (p.bytes.take s.c.toNat).length ≤ (s.opix + 1) * s.c.toNat := by
          rw [Nat.add_mul]; omega
      _ ≤ s.outSize := Nat.mul_le_mul_right _ h
  rw [emit, memWrite, if_pos h1, andThen_next]

/-- The repeats of a unit that the image has room for all happen. -/
theorem emitTimes_eq {n : Nat} {p : Pixel} {s : State} (h : s.opix + n ≤ s.pixelCount) :
    emitTimes n p s = .next (afterEmits n p s) := by
  induction n generalizing s with
  | zero => simp [emitTimes, afterEmits, outAfter]
  | succ n ih =>
    rw [emitTimes, emit_eq (by omega), andThen_next, ih (by simpa using (by omega : s.opix + 1 + n ≤ s.pixelCount))]
    simp only [afterEmits, emitted, outAfter]
    congr 2
    · omega
    · simp

/-- The state after a unit that passes its checks. -/
def afterUnit (k : Kind) (p : Pixel) (n : Nat) (s : State) : State :=
  terminate (advance (unitLen k) (afterEmits n p (cacheUpdate p s)))

/-- ALL that the frame of a unit can do: raise the overrun, or take its whole effect. It never faults or refuses. -/
theorem finishUnit_eq (k : Kind) (p : Pixel) (n : Nat) (s : State) :
    finishUnit k p n s
      = if s.pixelCount < s.opix + n then .next (raise .malformedStream s.iptr s)
        else .next (afterUnit k p n s) := by
  by_cases h : s.pixelCount < s.opix + n
  · simp [finishUnit, h]
  · have : emitTimes n p (cacheUpdate p s) = .next (afterEmits n p (cacheUpdate p s)) :=
      emitTimes_eq (by simpa using Nat.not_lt.mp h)
    simp [finishUnit, h, this, afterUnit]

section
variable (k : Kind) (p : Pixel) (n : Nat) (s : State)

@[simp] theorem afterUnit_phase : (afterUnit k p n s).phase
    = if s.opix + n = s.pixelCount then .done else s.phase := rfl
@[simp] theorem afterUnit_l : (afterUnit k p n s).l = s.l := rfl
@[simp] theorem afterUnit_w : (afterUnit k p n s).w = s.w := rfl
@[simp] theorem afterUnit_h : (afterUnit k p n s).h = s.h := rfl
@[simp] theorem afterUnit_c : (afterUnit k p n s).c = s.c := rfl
@[simp] theorem afterUnit_cs : (afterUnit k p n s).cs = s.cs := rfl
@[simp] theorem afterUnit_iptr : (afterUnit k p n s).iptr = s.iptr + unitLen k := rfl
@[simp] theorem afterUnit_opix : (afterUnit k p n s).opix = s.opix + n := rfl
@[simp] theorem afterUnit_prev : (afterUnit k p n s).prev = if n = 0 then s.prev else p := rfl
@[simp] theorem afterUnit_cache : (afterUnit k p n s).cache = (cacheUpdate p s).cache := rfl
@[simp] theorem afterUnit_errKind : (afterUnit k p n s).errKind = s.errKind := rfl
@[simp] theorem afterUnit_errOff : (afterUnit k p n s).errOff = s.errOff := rfl
@[simp] theorem afterUnit_inMem : (afterUnit k p n s).inMem = s.inMem := rfl
@[simp] theorem afterUnit_outMem : (afterUnit k p n s).outMem
    = outAfter s.c.toNat (p.bytes.take s.c.toNat) n s.opix s.outMem := rfl
@[simp] theorem afterUnit_params : (afterUnit k p n s).params = s.params := rfl
@[simp] theorem afterUnit_host : (afterUnit k p n s).host = s.host := rfl
@[simp] theorem afterUnit_pixelCount : (afterUnit k p n s).pixelCount = s.pixelCount := rfl
@[simp] theorem afterUnit_outSize : (afterUnit k p n s).outSize = s.outSize := rfl

end

/-! ### OUT after a run -/

theorem outAfter_wf {m : Memory} (hm : Memory.wf m) (c n k : Nat) (bs : List Byte) : Memory.wf (outAfter c bs n k m) := by
  induction n generalizing k m with
  | zero => exact hm
  | succ n ih => exact ih (Memory.writeBytes_wf hm _ _) (k + 1)

theorem outAfter_keys {m : Memory} {c k : Nat} {bs : List Byte} (hb : bs.length = c)
    (hm : m.map Prod.fst = List.range (k * c)) (n : Nat) :
    (outAfter c bs n k m).map Prod.fst = List.range ((k + n) * c) := by
  induction n generalizing k m with
  | zero => simpa [outAfter] using hm
  | succ n ih =>
    have h1 := Memory.keys_writeBytes_end hm bs
    rw [hb, ← Nat.succ_mul] at h1
    have h2 := ih h1
    rw [show k.succ + n = k + (n + 1) by omega] at h2
    exact h2

/-- Outside the bytes of pixels `k .. k+n-1` a run leaves OUT as it was. -/
theorem read_outAfter_outside {c n k x : Nat} {bs : List Byte} (hb : bs.length ≤ c) (m : Memory)
    (h : x < k * c ∨ (k + n) * c ≤ x) : Memory.read (outAfter c bs n k m) x = Memory.read m x := by
  induction n generalizing k m with
  | zero => rfl
  | succ n ih =>
    have e : (k + (n + 1)) * c = k * c + c + n * c := by ring
    have e1 : (k + 1) * c = k * c + c := by ring
    have e2 : (k + 1 + n) * c = k * c + c + n * c := by ring
    rw [outAfter, ih _ (by omega), Memory.read_writeBytes_outside _ _ (by
      rcases h with h | h
      · exact Or.inl h
      · right; omega)]

/-- Byte `j` of the `i`-th pixel of a run is channel byte `j`. -/
theorem read_outAfter_inside {c n k i j : Nat} {bs : List Byte} (hb : bs.length = c) (m : Memory)
    (hi : i < n) (hj : j < c) : Memory.read (outAfter c bs n k m) ((k + i) * c + j) = bs[j]? := by
  induction n generalizing k i m with
  | zero => omega
  | succ n ih =>
    rw [outAfter]
    cases i with
    | zero =>
      have e1 : (k + 1) * c = k * c + c := by ring
      show Memory.read _ (k * c + j) = _
      rw [read_outAfter_outside hb.le _ (Or.inl (by omega)), Memory.read_writeBytes,
        if_pos (by omega), Nat.add_sub_cancel_left]
    | succ i =>
      have := ih (k := k + 1) (i := i) (Memory.writeBytes m (k * c) bs) (by omega)
      rw [show k + (i + 1) = k + 1 + i by omega]
      exact this

end Sys2Proof.Machine
end

