-- ==== Sys2Proof/Laws/PerInstr.lean ====
section
/-! SUPPORT. Statements for all instructions, one lemma per constructor: the bytes of a well-formed unit start with an opcode
byte of the unit's kind and have the kind's length (30_encoding.md R71, R79, R82). -/

namespace Sys2Proof.Laws.UnitShape

/-- The encoding's first byte classifies as the unit's kind, and the encoding has the kind's length. -/
def Statement (i : Instr) : Prop :=
  i.wf = true → ∃ b rest, encode i = b :: rest ∧ classify b = i.kind ∧ rest.length + 1 = unitLen i.kind

theorem rgb (r g b : Byte) : Statement (.rgb r g b) :=
  fun _ => ⟨0xFE, [r, g, b], rfl, rfl, rfl⟩

theorem rgba (r g b a : Byte) : Statement (.rgba r g b a) :=
  fun _ => ⟨0xFF, [r, g, b, a], rfl, rfl, rfl⟩

theorem index (idx : Fin 64) : Statement (.index idx) :=
  fun _ => ⟨_, [], rfl, (index_byte idx).1, rfl⟩

theorem diff (dr dg db : Int) : Statement (.diff dr dg db) := by
  intro h
  obtain ⟨x, y, z, e, -⟩ := encode_diff_raw h
  exact ⟨_, [], e, (diff_byte x y z).1, rfl⟩

theorem luma (dg drdg dbdg : Int) : Statement (.luma dg drdg dbdg) := by
  intro h
  obtain ⟨x, y, z, e, -⟩ := encode_luma_raw h
  exact ⟨_, [_], e, (luma_byte0 x).1, rfl⟩

theorem run (n : Nat) : Statement (.run n) := by
  intro h
  obtain ⟨x, e, -⟩ := encode_run_raw h
  exact ⟨_, [], e, (run_byte x).1, rfl⟩

end Sys2Proof.Laws.UnitShape
end

