-- ==== Sys2Proof/Laws/Step.lean ====
section
/-! SUPPORT. What a step can do, said once per function: the fetch, the execution of a unit, the header step, the host's
commands, and the step itself. -/

namespace Sys2Proof.Machine

/-! ### Execution -/

/-- Every meaning is the common frame on what its `Exec` returns (41_stream_cycle.md R120, R125). -/
theorem exec_eq (i : Instr) (s : State) :
    exec i s = finishUnit i.kind (execResult i s).1 (execResult i s).2 s := by
  cases i <;> rfl

/-- A unit with room for its pixels takes its whole effect. -/
theorem exec_room {i : Instr} {s : State} (h : s.opix + (execResult i s).2 ≤ s.pixelCount) :
    exec i s = .next (afterUnit i.kind (execResult i s).1 (execResult i s).2 s) := by
  rw [exec_eq, finishUnit_eq, if_neg (by omega)]

/-- A unit without room raises MalformedStream(IPTR) (R126). -/
theorem exec_overrun {i : Instr} {s : State} (h : s.pixelCount < s.opix + (execResult i s).2) :
    exec i s = .next (raise .malformedStream s.iptr s) := by
  rw [exec_eq, finishUnit_eq, if_pos h]

/-- What executing a unit can do. -/
theorem exec_cases {i : Instr} {s t : State} (h : exec i s = .next t) :
    (s.pixelCount < s.opix + (execResult i s).2 ∧ t = raise .malformedStream s.iptr s)
      ∨ (s.opix + (execResult i s).2 ≤ s.pixelCount
          ∧ t = afterUnit i.kind (execResult i s).1 (execResult i s).2 s) := by
  by_cases hn : s.pixelCount < s.opix + (execResult i s).2
  · rw [exec_overrun hn, Host.Outcome.next.injEq] at h
    exact Or.inl ⟨hn, h.symm⟩
  · rw [exec_room (by omega), Host.Outcome.next.injEq] at h
    exact Or.inr ⟨by omega, h.symm⟩

/-- A well-formed unit emits 1 to 62 pixels. -/
theorem execResult_count {i : Instr} (h : i.wf = true) (s : State) :
    1 ≤ (execResult i s).2 ∧ (execResult i s).2 ≤ 62 := by
  cases i with
  | run n =>
    simp only [Instr.wf, inRange_iff] at h
    simp only [execResult]
    omega
  | _ => simp [execResult]

/-! ### Fetch -/

theorem fetch_end {s : State} (h : s.iptr = s.l) : fetch s = .next (.error .malformedStream s.l) := by
  simp [fetch, h]

theorem fetch_truncated {s : State} {b : Byte} (h : s.iptr < s.l) (hb : Memory.read s.inMem s.iptr = some b)
    (ht : s.l < s.iptr + unitLen (classify b)) : fetch s = .next (.error .truncatedInput s.iptr) := by
  rw [fetch, if_neg (by omega), inByte_eq_next.mpr ⟨h, hb⟩, andThen_next, if_pos ht]

/-- The unit whose bytes stand at IPTR is fetched. -/
theorem fetch_unit {s : State} {b : Byte} {ops : List Byte} {i : Instr}
    (hb : Memory.read s.inMem s.iptr = some b)
    (hl : s.iptr + unitLen (classify b) ≤ s.l) (hn : ops.length = unitLen (classify b) - 1)
    (ho : ∀ k < ops.length, Memory.read s.inMem (s.iptr + 1 + k) = ops[k]?)
    (hd : decode (b :: ops) = .ok (i, [])) : fetch s = .next (.unit i) := by
  have hp := unitLen_pos (classify b)
  rw [fetch, if_neg (by omega), inByte_eq_next.mpr ⟨by omega, hb⟩, andThen_next, if_neg (by omega),
    memRead_eq_next.mpr ⟨by omega, hn, hn ▸ ho⟩, andThen_next]
  simp [hd]

/-- What a fetch can come to. -/
theorem fetch_cases {s : State} {x : Fetched} (h : fetch s = .next x) :
    (s.iptr = s.l ∧ x = .error .malformedStream s.l)
      ∨ ∃ b, s.iptr < s.l ∧ Memory.read s.inMem s.iptr = some b
        ∧ ((s.l < s.iptr + unitLen (classify b) ∧ x = .error .truncatedInput s.iptr)
          ∨ ∃ i ops, s.iptr + unitLen (classify b) ≤ s.l ∧ ops.length = unitLen (classify b) - 1
            ∧ (∀ k < ops.length, Memory.read s.inMem (s.iptr + 1 + k) = ops[k]?)
            ∧ decode (b :: ops) = .ok (i, []) ∧ i.kind = classify b ∧ i.wf = true ∧ x = .unit i) := by
  by_cases he : s.iptr = s.l
  · rw [fetch_end he, Host.Outcome.next.injEq] at h
    exact Or.inl ⟨he, h.symm⟩
  · rw [fetch, if_neg he, andThen_eq_next] at h
    obtain ⟨b, hb, h⟩ := h
    obtain ⟨hlt, hb⟩ := inByte_eq_next.mp hb
    refine Or.inr ⟨b, hlt, hb, ?_⟩
    by_cases ht : s.l < s.iptr + unitLen (classify b)
    · rw [if_pos ht, Host.Outcome.next.injEq] at h
      exact Or.inl ⟨ht, h.symm⟩
    · rw [if_neg ht, andThen_eq_next] at h
      obtain ⟨ops, ho, h⟩ := h
      obtain ⟨-, hn, hr⟩ := memRead_eq_next.mp ho
      have hp := unitLen_pos (classify b)
      obtain ⟨i, hd, hk, hw⟩ := decode_full (b := b) (rest := ops) (by omega)
      rw [List.drop_of_length_le (by omega)] at hd
      simp only [hd, Host.Outcome.next.injEq] at h
      exact Or.inr ⟨i, ops, by omega, hn, hn ▸ hr, hd, hk, hw, h.symm⟩

/-- With the input resident and IPTR inside it, a fetch answers. -/
theorem fetch_resident {s : State} (hr : Memory.resident s.inMem s.l) (h : s.iptr ≤ s.l) : ∃ x, fetch s = .next x := by
  by_cases he : s.iptr = s.l
  · exact ⟨_, fetch_end he⟩
  · obtain ⟨b, -, hb⟩ := inByte_resident hr (a := s.iptr) (by omega)
    by_cases ht : s.l < s.iptr + unitLen (classify b)
    · exact ⟨_, fetch_truncated (by omega) hb ht⟩
    · have hp := unitLen_pos (classify b)
      obtain ⟨ops, -, hn, ho⟩ := memRead_resident hr (a := s.iptr + 1) (n := unitLen (classify b) - 1) (by omega)
      obtain ⟨i, hd, -, -⟩ := decode_full (b := b) (rest := ops) (by omega)
      rw [List.drop_of_length_le (by omega)] at hd
      exact ⟨_, fetch_unit hb (by omega) hn (hn ▸ ho) hd⟩

/-! ### The header step -/

/-- One check of the header step: it raises, or the rest goes on. -/
theorem check_cases {bad : Prop} [Decidable bad] {k : ErrKind} {off : Nat} {s t : State}
    {rest : Host.Outcome State Fault Refusal} (h : (if bad then .next (raise k off s) else rest) = .next t) :
    (bad ∧ t = raise k off s) ∨ (¬bad ∧ rest = .next t) := by
  by_cases hb : bad
  · rw [if_pos hb] at h
    exact Or.inl ⟨hb, (Host.Outcome.next.inj h).symm⟩
  · rw [if_neg hb] at h
    exact Or.inr ⟨hb, h⟩

theorem check_answers {bad : Prop} [Decidable bad] {k : ErrKind} {off : Nat} {s : State}
    {rest : Host.Outcome State Fault Refusal} (h : ¬bad → ∃ t, rest = .next t) :
    ∃ t, (if bad then .next (raise k off s) else rest) = .next t := by
  by_cases hb : bad
  · exact ⟨_, if_pos hb⟩
  · rw [if_neg hb]
    exact h hb

/-- What the header step can do: raise one error, or commit a legal header (40_header.md R100, R107). -/
theorem headerStep_cases {s t : State} (h : headerStep s = .next t) :
    (∃ k off, k ≠ .noError ∧ off ≤ s.l ∧ t = raise k off s)
      ∨ ∃ w h c cs, w ≠ 0 ∧ h ≠ 0 ∧ (c = 3 ∨ c = 4) ∧ cs.toNat ≤ 1
          ∧ w.toNat * h.toNat * c.toNat ≤ s.params.pOutCap ∧ 15 ≤ s.l ∧ t = commitHeader w h c cs s := by
  unfold headerStep at h
  rcases check_cases h with ⟨-, rfl⟩ | ⟨l4, h⟩
  · exact Or.inl ⟨_, _, by decide, by omega, rfl⟩
  obtain ⟨tag, -, h⟩ := andThen_eq_next.mp h
  rcases check_cases h with ⟨-, rfl⟩ | ⟨-, h⟩
  · exact Or.inl ⟨_, _, by decide, by omega, rfl⟩
  rcases check_cases h with ⟨-, rfl⟩ | ⟨l8, h⟩
  · exact Or.inl ⟨_, _, by decide, by omega, rfl⟩
  obtain ⟨wb, -, h⟩ := andThen_eq_next.mp h
  rcases check_cases h with ⟨-, rfl⟩ | ⟨hw, h⟩
  · exact Or.inl ⟨_, _, by decide, by omega, rfl⟩
  rcases check_cases h with ⟨-, rfl⟩ | ⟨l12, h⟩
  · exact Or.inl ⟨_, _, by decide, by omega, rfl⟩
  obtain ⟨hb, -, h⟩ := andThen_eq_next.mp h
  rcases check_cases h with ⟨-, rfl⟩ | ⟨hh, h⟩
  · exact Or.inl ⟨_, _, by decide, by omega, rfl⟩
  rcases check_cases h with ⟨-, rfl⟩ | ⟨l13, h⟩
  · exact Or.inl ⟨_, _, by decide, by omega, rfl⟩
  obtain ⟨c, -, h⟩ := andThen_eq_next.mp h
  rcases check_cases h with ⟨-, rfl⟩ | ⟨hc, h⟩
  · exact Or.inl ⟨_, _, by decide, by omega, rfl⟩
  rcases check_cases h with ⟨-, rfl⟩ | ⟨hcap, h⟩
  · exact Or.inl ⟨_, _, by decide, by omega, rfl⟩
  rcases check_cases h with ⟨-, rfl⟩ | ⟨l14, h⟩
  · exact Or.inl ⟨_, _, by decide, by omega, rfl⟩
  obtain ⟨cs, -, h⟩ := andThen_eq_next.mp h
  rcases check_cases h with ⟨-, rfl⟩ | ⟨hcs, h⟩
  · exact Or.inl ⟨_, _, by decide, by omega, rfl⟩
  rcases check_cases h with ⟨-, rfl⟩ | ⟨l15, h⟩
  · exact Or.inl ⟨_, _, by decide, by omega, rfl⟩
  have hc' : c = 3 ∨ c = 4 := by
    by_contra hn
    exact hc (not_or.mp hn)
  exact Or.inr ⟨be32 wb, be32 hb, c, cs, hw, hh, hc', by omega, by omega, by omega, (Host.Outcome.next.inj h).symm⟩

/-- With the input resident the header step answers. -/
theorem headerStep_resident {s : State} (hr : Memory.resident s.inMem s.l) : ∃ t, headerStep s = .next t := by
  unfold headerStep
  refine check_answers fun l4 => ?_
  obtain ⟨tag, e, -⟩ := memRead_resident hr (a := 0) (n := 4) (by omega)
  rw [e, andThen_next]
  refine check_answers fun _ => check_answers fun l8 => ?_
  obtain ⟨wb, e, -⟩ := memRead_resident hr (a := 4) (n := 4) (by omega)
  rw [e, andThen_next]
  refine check_answers fun _ => check_answers fun l12 => ?_
  obtain ⟨hb, e, -⟩ := memRead_resident hr (a := 8) (n := 4) (by omega)
  rw [e, andThen_next]
  refine check_answers fun _ => check_answers fun l13 => ?_
  obtain ⟨c, e, -⟩ := inByte_resident hr (a := 12) (by omega)
  rw [e, andThen_next]
  refine check_answers fun _ => check_answers fun _ => check_answers fun l14 => ?_
  obtain ⟨cs, e, -⟩ := inByte_resident hr (a := 13) (by omega)
  rw [e, andThen_next]
  exact check_answers fun _ => check_answers fun _ => ⟨_, rfl⟩

/-- A dimension's four bytes read back as the dimension (20_memory.md R53). -/
theorem be32_dimBytes (v : Dim) : be32 (dimBytes v) = v := by
  apply BitVec.eq_of_toNat_eq
  have := v.isLt
  simp only [be32, bigEndian, dimBytes, List.foldl, BitVec.toNat_ofNat, BitVec.extractLsb'_toNat, Nat.shiftRight_eq_div_pow]
  omega

/-! ### The block's step -/

/-- What an opcode step can do. -/
theorem streamStep_cases {s t : State} (h : streamStep s = .next t) :
    (∃ k off, k ≠ .noError ∧ off ≤ s.l ∧ t = raise k off s)
      ∨ ∃ i b, i.wf = true ∧ Memory.read s.inMem s.iptr = some b ∧ i.kind = classify b
          ∧ s.iptr + unitLen i.kind ≤ s.l ∧ exec i s = .next t := by
  rw [streamStep, andThen_eq_next] at h
  obtain ⟨x, hx, h⟩ := h
  rcases fetch_cases hx with ⟨-, rfl⟩ | ⟨b, hlt, hb, ⟨-, rfl⟩ | ⟨i, ops, hl, -, -, -, hk, hw, rfl⟩⟩
  · exact Or.inl ⟨_, _, by decide, le_refl _, (Host.Outcome.next.inj h).symm⟩
  · exact Or.inl ⟨_, _, by decide, hlt.le, (Host.Outcome.next.inj h).symm⟩
  · exact Or.inr ⟨i, b, hw, hb, hk, hk ▸ hl, h⟩

/-- What the block's step can do in any phase. -/
theorem blockStep_cases {s t : State} (h : blockStep s = .next t) :
    (s.phase.busy = false ∧ t = s) ∨ (s.phase = .header ∧ headerStep s = .next t)
      ∨ (s.phase = .stream ∧ streamStep s = .next t) := by
  unfold blockStep at h
  cases hp : s.phase <;> rw [hp] at h
  · exact Or.inl ⟨rfl, (Host.Outcome.next.inj h).symm⟩
  · exact Or.inr (Or.inl ⟨rfl, h⟩)
  · exact Or.inr (Or.inr ⟨rfl, h⟩)
  · exact Or.inl ⟨rfl, (Host.Outcome.next.inj h).symm⟩
  · exact Or.inl ⟨rfl, (Host.Outcome.next.inj h).symm⟩

/-- What a host command can do. -/
theorem hostCommand_cases {k : HostCommand} {s t : State} (h : hostCommand k s = .next t) :
    (∃ off bs, k = .placeInput off bs ∧ s.phase.busy = false ∧ off + bs.length ≤ s.params.pInMax
        ∧ t = placeInput off bs s)
      ∨ (∃ len, k = .start len ∧ len ≤ s.params.pInMax ∧ Memory.resident s.inMem len ∧ t = startDecode len s)
      ∨ (k = .abort ∧ t = abortDecode s) ∨ (k = .reset ∧ t = resetBlock s) := by
  cases k with
  | placeInput off bs =>
    simp only [hostCommand] at h
    split at h
    · cases h
    · split at h
      · cases h
      · refine Or.inl ⟨off, bs, rfl, ?_, by omega, (Host.Outcome.next.inj h).symm⟩
        cases hp : s.phase <;> simp_all [Phase.busy]
  | start len =>
    simp only [hostCommand] at h
    split at h
    · cases h
    · split at h
      · exact Or.inr (Or.inl ⟨len, rfl, by omega, ‹_›, (Host.Outcome.next.inj h).symm⟩)
      · cases h
  | abort => exact Or.inr (Or.inr (Or.inl ⟨rfl, (Host.Outcome.next.inj h).symm⟩))
  | reset => exact Or.inr (Or.inr (Or.inr ⟨rfl, (Host.Outcome.next.inj h).symm⟩))

/-- The state a step starts from once the host's move is taken off the schedule. -/
def State.dropMove (s : State) : State :=
  { s with host := s.host.tail }

/-- What a step can do: the block's own step, or one host command. -/
theorem step_cases {s t : State} (h : step s = .next t) :
    ((s.host = [] ∨ ∃ rest, s.host = .letRun :: rest) ∧ blockStep s.dropMove = .next t)
      ∨ ∃ k rest, s.host = .command k :: rest ∧ hostCommand k s.dropMove = .next t := by
  unfold step at h
  match hh : s.host with
  | [] =>
    rw [hh] at h
    refine Or.inl ⟨Or.inl rfl, ?_⟩
    have : s.dropMove = s := by rw [State.dropMove, hh, List.tail_nil, ← hh]
    rw [this]; exact h
  | .letRun :: rest =>
    rw [hh] at h
    refine Or.inl ⟨Or.inr ⟨rest, rfl⟩, ?_⟩
    rw [State.dropMove, hh]; exact h
  | .command k :: rest =>
    rw [hh] at h
    refine Or.inr ⟨k, rest, rfl, ?_⟩
    rw [State.dropMove, hh]; exact h

/-- ALL that a step can do, with the state it leaves: the block idles, runs the header step or an opcode step, or the host issues a
command. -/
theorem step_outcomes {s t : State} (h : step s = .next t) :
    ((s.host = [] ∨ ∃ rest, s.host = .letRun :: rest) ∧
      ((s.phase.busy = false ∧ t = s.dropMove)
        ∨ (s.phase = .header ∧
            ((∃ k off, k ≠ .noError ∧ off ≤ s.l ∧ t = raise k off s.dropMove)
              ∨ ∃ w h c cs, t = commitHeader w h c cs s.dropMove))
        ∨ (s.phase = .stream ∧
            ((∃ k off, k ≠ .noError ∧ off ≤ s.l ∧ t = raise k off s.dropMove)
              ∨ t = raise .malformedStream s.iptr s.dropMove
              ∨ ∃ i, i.wf = true ∧ s.iptr + unitLen i.kind ≤ s.l
                  ∧ s.opix + (execResult i s.dropMove).2 ≤ s.pixelCount
                  ∧ t = afterUnit i.kind (execResult i s.dropMove).1 (execResult i s.dropMove).2 s.dropMove))))
      ∨ ∃ k rest, s.host = .command k :: rest ∧
          ((∃ off bs, k = .placeInput off bs ∧ s.phase.busy = false ∧ t = placeInput off bs s.dropMove)
            ∨ (∃ len, k = .start len ∧ t = startDecode len s.dropMove)
            ∨ (k = .abort ∧ t = abortDecode s.dropMove) ∨ (k = .reset ∧ t = resetBlock s.dropMove)) := by
  rcases step_cases h with ⟨h0, h⟩ | ⟨k, rest, h0, h⟩
  · refine Or.inl ⟨h0, ?_⟩
    rcases blockStep_cases h with ⟨hb, rfl⟩ | ⟨hp, h⟩ | ⟨hp, h⟩
    · exact Or.inl ⟨hb, rfl⟩
    · refine Or.inr (Or.inl ⟨hp, ?_⟩)
      rcases headerStep_cases h with e | ⟨w, h, c, cs, -, -, -, -, -, -, e⟩
      · exact Or.inl e
      · exact Or.inr ⟨w, h, c, cs, e⟩
    · refine Or.inr (Or.inr ⟨hp, ?_⟩)
      rcases streamStep_cases h with e | ⟨i, b, hw, -, -, hl, h⟩
      · exact Or.inl e
      · rcases exec_cases h with ⟨-, e⟩ | ⟨hr, e⟩
        · exact Or.inr (Or.inl e)
        · exact Or.inr (Or.inr ⟨i, hw, hl, hr, e⟩)
  · refine Or.inr ⟨k, rest, h0, ?_⟩
    rcases hostCommand_cases h with ⟨off, bs, hk, hb, -, e⟩ | ⟨len, hk, -, -, e⟩ | e | e
    · exact Or.inl ⟨off, bs, hk, hb, e⟩
    · exact Or.inr (Or.inl ⟨len, hk, e⟩)
    · exact Or.inr (Or.inr (Or.inl e))
    · exact Or.inr (Or.inr (Or.inr e))

/-- With no host move the step is the block's own. -/
theorem step_of_no_move {s : State} (h : s.host = []) : step s = blockStep s := by
  simp [step, h]

@[simp] theorem steps_zero (s : State) : steps 0 s = .next s := rfl

theorem steps_succ (k : Nat) (s : State) : steps (k + 1) s = andThen (step s) (steps k) := rfl

theorem run_of_next {M : Host.Core} {s t : M.State} (h : M.step s = .next t) (k : Nat) :
    Host.Core.run M (k + 1) s = Host.Core.run M k t := by
  rw [Host.Core.run, h]

theorem run_of_fault {M : Host.Core} {s : M.State} {r : M.Fault} (h : M.step s = .fault r) (k : Nat) :
    Host.Core.run M (k + 1) s = .fault r := by
  rw [Host.Core.run, h]

theorem run_of_refused {M : Host.Core} {s : M.State} {r : M.Refusal} (h : M.step s = .refused r) (k : Nat) :
    Host.Core.run M (k + 1) s = .refused r := by
  rw [Host.Core.run, h]

/-- `steps` is the host's `run` of this machine. -/
theorem steps_eq_run (k : Nat) (s : State) : steps k s = Host.Core.run core k s := by
  induction k generalizing s with
  | zero => rfl
  | succ k ih =>
    cases h : step s with
    | next t => rw [steps_succ, h, andThen_next, ih]; exact (run_of_next (M := core) h k).symm
    | fault r => rw [steps_succ, h]; exact (run_of_fault (M := core) h k).symm
    | refused r => rw [steps_succ, h]; exact (run_of_refused (M := core) h k).symm

end Sys2Proof.Machine
end

