-- ==== Sys2Proof/Laws/Inv.lean ====
section
/-! SUPPORT. Each operation keeps the invariant: one lemma per operation, for the proof that every step does. -/

namespace Sys2Proof.Machine

/-- The invariant does not look at the host's schedule. -/
theorem inv_dropMove {s : State} (h : s.Inv) : s.dropMove.Inv :=
  { params := h.params, in_wf := h.in_wf, out_wf := h.out_wf, in_fits := h.in_fits, len_fits := h.len_fits
    input_resident := h.input_resident, cache_law := h.cache_law
    started := fun p => ⟨(h.started p).image, (h.started p).cursors, (h.started p).prev, (h.started p).cache,
      (h.started p).out, (h.started p).err⟩
    streaming := fun p =>
      let d := (h.streaming p).1
      ⟨⟨⟨d.image.1, d.image.2, d.image.3, d.image.4, d.image.5⟩, d.2, d.3, d.4, d.5, d.6, d.7, d.8⟩,
        (h.streaming p).2⟩
    finished := fun p =>
      let d := (h.finished p).1
      ⟨⟨⟨d.image.1, d.image.2, d.image.3, d.image.4, d.image.5⟩, d.2, d.3, d.4, d.5, d.6, d.7, d.8⟩,
        (h.finished p).2⟩
    failed := h.failed }

theorem cacheLaw_update {s : State} (h : s.CacheLaw) (p : Pixel) : (cacheUpdate p s).CacheLaw := by
  intro idx
  rw [cacheRead_cacheUpdate]
  by_cases e : idx = pixelHash p
  · simp [e]
  · simpa [e] using h idx

theorem cacheLaw_congr {s t : State} (h : s.CacheLaw) (e : t.cache = s.cache) : t.CacheLaw := by
  intro idx
  rw [cacheRead_congr e]
  exact h idx

theorem cacheLaw_replicate {s : State} (e : s.cache = Vector.replicate 64 Pixel.zero) : s.CacheLaw := by
  intro idx
  left
  simp [cacheRead, e]

theorem inv_raise {s : State} (h : s.Inv) {k : ErrKind} {off : Nat} (hk : k ≠ .noError) (ho : off ≤ s.l) :
    (raise k off s).Inv :=
  { params := h.params, in_wf := h.in_wf, out_wf := h.out_wf, in_fits := h.in_fits, len_fits := h.len_fits
    input_resident := h.input_resident, cache_law := cacheLaw_congr h.cache_law rfl
    started := by simp, streaming := by simp, finished := by simp
    failed := fun _ => ⟨hk, ho⟩ }

theorem inv_abort {s : State} (h : s.Inv) : (abortDecode s).Inv :=
  { params := h.params, in_wf := h.in_wf, out_wf := h.out_wf, in_fits := h.in_fits, len_fits := h.len_fits
    input_resident := h.input_resident, cache_law := cacheLaw_congr h.cache_law rfl
    started := by simp, streaming := by simp, finished := by simp, failed := by simp }

theorem inv_reset {s : State} (h : s.Inv) : (resetBlock s).Inv :=
  { params := h.params, in_wf := h.in_wf, out_wf := by simp [Memory.wf], in_fits := h.in_fits
    len_fits := by simp, input_resident := by simp [Memory.resident]
    cache_law := cacheLaw_replicate rfl
    started := by simp, streaming := by simp, finished := by simp, failed := by simp }

theorem inv_start {s : State} (h : s.Inv) {len : Nat} (hl : len ≤ s.params.pInMax)
    (hr : Memory.resident s.inMem len) : (startDecode len s).Inv :=
  { params := h.params, in_wf := h.in_wf, out_wf := by simp [Memory.wf], in_fits := h.in_fits
    len_fits := hl, input_resident := hr, cache_law := cacheLaw_replicate rfl
    started := fun _ => ⟨⟨rfl, rfl, rfl, rfl⟩, ⟨rfl, rfl⟩, rfl, rfl, rfl, ⟨rfl, rfl⟩⟩
    streaming := by simp, finished := by simp, failed := by simp }

theorem inv_placeInput {s : State} (h : s.Inv) {off : Nat} {bs : List Byte} (hb : s.phase.busy = false)
    (hf : off + bs.length ≤ s.params.pInMax) : (placeInput off bs s).Inv :=
  { params := h.params, in_wf := Memory.writeBytes_wf h.in_wf _ _, out_wf := h.out_wf
    in_fits := Memory.bound_writeBytes h.in_fits hf, len_fits := h.len_fits
    input_resident := Memory.resident_writeBytes h.input_resident _ _
    cache_law := cacheLaw_congr h.cache_law rfl
    started := fun p => by simp [placeInput_phase] at p; simp [p, Phase.busy] at hb
    streaming := fun p => by simp [placeInput_phase] at p; simp [p, Phase.busy] at hb
    finished := fun p =>
      let d := (h.finished p).1
      ⟨⟨⟨d.image.1, d.image.2, d.image.3, d.image.4, d.image.5⟩, d.2, d.3, d.4, d.5, d.6, d.7, d.8⟩,
        (h.finished p).2⟩
    failed := h.failed }

theorem inv_commitHeader {s : State} (i : s.Inv) (hp : s.phase = .header) {w h : Dim} {c cs : Byte}
    (hw : w ≠ 0) (hh : h ≠ 0) (hc : c = 3 ∨ c = 4) (hcs : cs.toNat ≤ 1)
    (hcap : w.toNat * h.toNat * c.toNat ≤ s.params.pOutCap) (hl : 15 ≤ s.l) :
    (commitHeader w h c cs s).Inv := by
  have st := i.started hp
  have pos : ∀ v : Dim, v ≠ 0 → 0 < v.toNat := fun v hv =>
    Nat.pos_of_ne_zero fun e => hv (BitVec.eq_of_toNat_eq (by simpa using e))
  refine
    { params := i.params, in_wf := i.in_wf, out_wf := i.out_wf, in_fits := i.in_fits, len_fits := i.len_fits
      input_resident := i.input_resident, cache_law := cacheLaw_congr i.cache_law rfl
      started := by simp, streaming := fun _ => ⟨⟨⟨hw, hh, hc, hcs, hcap⟩, le_refl _, ?_, st.err, ?_, ?_, ?_, ?_⟩, ?_⟩
      finished := by simp, failed := by simp }
  · show 14 ≤ s.l; omega
  · exact fun _ => ⟨rfl, st.prev, st.cache⟩
  · simp [st.cursors.2]
  · simp [st.cursors.2, st.out]
  · simp [st.cursors.2]
  · simpa [st.cursors.2, State.pixelCount] using ⟨pos w hw, pos h hh⟩

/-- A unit that passes its checks keeps the invariant (41_stream_cycle.md R136). -/
theorem inv_afterUnit {s : State} (i : s.Inv) (hp : s.phase = .stream) {k : Kind} {p : Pixel} {n : Nat}
    (h1 : 1 ≤ n) (h62 : n ≤ 62) (hl : s.iptr + unitLen k ≤ s.l) (hn : s.opix + n ≤ s.pixelCount) :
    (afterUnit k p n s).Inv := by
  obtain ⟨d, -⟩ := i.streaming hp
  have hlen := unitLen_pos k
  have hb : (p.bytes.take s.c.toNat).length = s.c.toNat := by
    rcases d.image.channels with e | e <;> simp [e, Pixel.bytes]
  have hprev : (afterUnit k p n s).prev = p := by simp; omega
  have dec : (afterUnit k p n s).Decoding :=
    { image := ⟨d.image.1, d.image.2, d.image.3, d.image.4, d.image.5⟩
      iptr_low := by have := d.iptr_low; simp; omega
      iptr_high := hl
      err := d.err
      first := fun e => by simp at e; omega
      prev_cached := fun _ => by
        rw [hprev, cacheRead_congr (s := afterUnit k p n s) (t := cacheUpdate p s) rfl, cacheRead_cacheUpdate,
          if_pos rfl]
      out := outAfter_keys hb d.out n
      pace := by have h2 := d.pace; have h3 := d.iptr_low; simp; omega }
  refine
    { params := i.params, in_wf := i.in_wf, out_wf := outAfter_wf i.out_wf _ _ _ _, in_fits := i.in_fits
      len_fits := i.len_fits, input_resident := i.input_resident
      cache_law := cacheLaw_congr (cacheLaw_update i.cache_law p) rfl
      started := fun e => ?_, streaming := fun e => ⟨dec, ?_⟩, finished := fun e => ⟨dec, ?_⟩, failed := fun e => ?_ }
  · rw [afterUnit_phase, hp] at e; split at e <;> cases e
  · rw [afterUnit_phase, hp] at e
    split at e
    · cases e
    · simp; omega
  · rw [afterUnit_phase, hp] at e
    split at e
    · simpa
    · cases e
  · rw [afterUnit_phase, hp] at e; split at e <;> cases e

/-- What every opcode step keeps. -/
theorem inv_streamStep {s t : State} (i : s.Inv) (hp : s.phase = .stream) (h : streamStep s = .next t) : t.Inv := by
  have hi := (i.streaming hp).1.iptr_high
  rcases streamStep_cases h with ⟨k, off, hk, ho, rfl⟩ | ⟨u, b, hw, -, -, hl, he⟩
  · exact inv_raise i hk ho
  · obtain ⟨h1, h62⟩ := execResult_count hw s
    rcases exec_cases he with ⟨-, rfl⟩ | ⟨hn, rfl⟩
    · exact inv_raise i (by decide) hi
    · exact inv_afterUnit i hp h1 h62 hl hn

/-- What the header step keeps. -/
theorem inv_headerStep {s t : State} (i : s.Inv) (hp : s.phase = .header) (h : headerStep s = .next t) : t.Inv := by
  rcases headerStep_cases h with ⟨k, off, hk, ho, rfl⟩ | ⟨w, hh, c, cs, h1, h2, h3, h4, h5, h6, rfl⟩
  · exact inv_raise i hk ho
  · exact inv_commitHeader i hp h1 h2 h3 h4 h5 h6

end Sys2Proof.Machine
end

