-- ==== Sys2Proof/Tests/Slice0.lean ====
section
/-! SUPPORT. The model's own tests: ill-formed terms refused, words written out from 30_encoding.md, single steps whose expected
results are those of 95_test_vectors.md, and for every obligation with hypotheses a witness that meets them all. -/

namespace Sys2Proof.Tests

open Sys2Proof.Machine Sys2Proof.Claims

/-! ### Small states -/

/-- The next state of an outcome. -/
def after (o : Host.Outcome State Fault Refusal) : Option State :=
  match o with
  | .next t => some t
  | .fault _ => none
  | .refused _ => none

/-- What a refused step says. -/
def refusal (o : Host.Outcome State Fault Refusal) : Option Refusal :=
  match o with
  | .next _ => none
  | .fault _ => none
  | .refused r => some r

/-- The state after START on the bytes of a file (95_test_vectors.md section 0). -/
def started (file : List Byte) : State :=
  startDecode file.length (placeInput 0 file State.reset)

/-- The state after the header step of a file `hdr(w,h,c)` followed by `bytes`. -/
def streaming (w h : Dim) (c : Byte) (bytes : List Byte) : State :=
  commitHeader w h c 0 (started (serializeHeader w h c 0 ++ bytes))

/-- A streaming state in the middle of an image: PREV is `p`, in the cache at its slot. -/
def withPrev (p : Pixel) (s : State) : State :=
  { cacheUpdate p s with prev := p }

/-- PHASE, IPTR, OPIX, PREV and the bytes of OUT. -/
abbrev View := Phase × Nat × Nat × Pixel × List Byte

def view (s : State) : View :=
  (s.phase, s.iptr, s.opix, s.prev, s.outMem.map Prod.snd)

/-- PHASE, ERR_KIND and ERR_OFF. -/
def errorView (s : State) : Phase × ErrKind × Nat :=
  (s.phase, s.errKind, s.errOff)

def stepView (s : State) : Option View :=
  (after (step s)).map view

def stepError (s : State) : Option (Phase × ErrKind × Nat) :=
  (after (step s)).map errorView

/-- The cache entry at a slot after a step. -/
def stepCache (slot : Fin 64) (s : State) : Option Pixel :=
  (after (step s)).map (cacheRead slot)

/-! ### Ill-formed terms (R78, R82) -/

theorem test_wf_refuses_diff_red : (Instr.diff (-3) 0 0).wf = false ∧ (Instr.diff 2 0 0).wf = false := by decide
theorem test_wf_refuses_diff_green : (Instr.diff 0 (-3) 0).wf = false ∧ (Instr.diff 0 2 0).wf = false := by decide
theorem test_wf_refuses_diff_blue : (Instr.diff 0 0 (-3)).wf = false ∧ (Instr.diff 0 0 2).wf = false := by decide
theorem test_wf_refuses_luma_green : (Instr.luma (-33) 0 0).wf = false ∧ (Instr.luma 32 0 0).wf = false := by decide
theorem test_wf_refuses_luma_red : (Instr.luma 0 (-9) 0).wf = false ∧ (Instr.luma 0 8 0).wf = false := by decide
theorem test_wf_refuses_luma_blue : (Instr.luma 0 0 (-9)).wf = false ∧ (Instr.luma 0 0 8).wf = false := by decide
theorem test_wf_refuses_run_length : (Instr.run 0).wf = false ∧ (Instr.run 63).wf = false := by decide
theorem test_wf_accepts_the_bounds :
    (Instr.diff (-2) 1 (-2)).wf = true ∧ (Instr.luma (-32) (-8) 7).wf = true ∧ (Instr.luma 31 7 (-8)).wf = true ∧
      (Instr.run 1).wf = true ∧ (Instr.run 62).wf = true := by decide
theorem test_params_refuse_small :
    (Params.mk 14 3).wf = false ∧ (Params.mk 15 2).wf = false ∧ (Params.mk 15 3).wf = true := by decide

/-! ### Words written out from R72 to R77, and the table of 95_test_vectors.md section 2.2 -/

theorem test_decode_rgb_bits : decode [0b11111110, 0x01, 0x02, 0x03] = .ok (.rgb 1 2 3, []) := by decide
theorem test_decode_rgba_bits : decode [0b11111111, 0x0A, 0x14, 0x1E, 0x28, 0x77] = .ok (.rgba 10 20 30 40, [0x77]) := by
  decide
theorem test_decode_index_bits :
    decode [0b00000000] = .ok (.index 0, []) ∧ decode [0b00111111] = .ok (.index 63, []) ∧
      decode [0b00110101] = .ok (.index 53, []) := by decide
theorem test_decode_diff_bits :
    decode [0b01000000] = .ok (.diff (-2) (-2) (-2), []) ∧ decode [0b01101010] = .ok (.diff 0 0 0, []) ∧
      decode [0b01111111] = .ok (.diff 1 1 1, []) ∧ decode [0b01000111] = .ok (.diff (-2) (-1) 1, []) := by decide
theorem test_decode_luma_bits :
    decode [0b10000000, 0b00000000] = .ok (.luma (-32) (-8) (-8), []) ∧
      decode [0b10111111, 0b11111111] = .ok (.luma 31 7 7, []) ∧
      decode [0b10100001, 0b01111010] = .ok (.luma 1 (-1) 2, []) := by decide
theorem test_decode_run_bits : decode [0b11000000] = .ok (.run 1, []) ∧ decode [0b11111101] = .ok (.run 62, []) := by decide
theorem test_decode_missing_bytes :
    decode [0xFE, 1, 2] = .error (.missingExtraBytes .rgb) ∧ decode [0xFF, 1, 2, 3] = .error (.missingExtraBytes .rgba) ∧
      decode [0xA0] = .error (.missingExtraBytes .luma) := by decide

/-- How many of the 256 opcode bytes are of a kind. -/
def kindCount (k : Kind) : Nat :=
  ((List.range 256).filter fun b => classify (BitVec.ofNat 8 b) == k).length

set_option maxRecDepth 4000 in
/-- The count of 95_test_vectors.md section 2.2. -/
theorem test_kind_counts :
    kindCount .index = 64 ∧ kindCount .diff = 64 ∧ kindCount .luma = 64 ∧ kindCount .run = 62 ∧
      kindCount .rgb = 1 ∧ kindCount .rgba = 1 := by decide

/-- Program P1 of 95_test_vectors.md assembles to its bytes. -/
theorem test_assemble_p1 :
    assemble [.header 3 1 3 0, .unit (.rgb 100 150 200), .unit (.run 1), .unit (.luma (-2) (-5) 4),
        .bytes [0, 0, 0, 0, 0, 0, 0, 1]]
      = some [0x71, 0x6F, 0x69, 0x66, 0, 0, 0, 3, 0, 0, 0, 1, 3, 0, 0xFE, 0x64, 0x96, 0xC8, 0xC0, 0x9E, 0x3C,
          0, 0, 0, 0, 0, 0, 0, 1] := by decide

/-- Program P2 assembles to its bytes; an operand outside its range assembles to none (R82). -/
theorem test_assemble_p2 :
    assemble [.header 2 2 4 0, .unit (.rgba 10 20 30 40), .unit (.diff (-2) 0 0), .unit (.index 12), .unit (.run 1)]
      = some [0x71, 0x6F, 0x69, 0x66, 0, 0, 0, 2, 0, 0, 0, 2, 4, 0, 0xFF, 0x0A, 0x14, 0x1E, 0x28, 0x4A, 0x0C, 0xC0]
      ∧ assemble [.unit (.run 1), .unit (.run 63)] = none := by decide

/-- R82's syntax: a mnemonic, operands in decimal. -/
theorem test_text : (AsmLine.unit (.luma (-2) (-5) 4)).text = "LUMA -2, -5, 4" ∧
    (AsmLine.unit (.index 53)).text = "INDEX 53" := by decide

/-! ### A unit given as one number -/

theorem test_table_word :
    decodeTableWord 32 0x030201FE = some (.rgb 1 2 3) ∧ decodeTableWord 40 0x04030201FF = some (.rgba 1 2 3 4) ∧
      decodeTableWord 8 0x35 = some (.index 53) ∧ decodeTableWord 8 0x4A = some (.diff (-2) 0 0) ∧
      decodeTableWord 16 0x3C9E = some (.luma (-2) (-5) 4) ∧ decodeTableWord 8 0xFD = some (.run 62) := by decide

/-- The first step after reset with a unit placed runs it: RGBA 1,2,3,4 here. -/
theorem test_fetch_word_rgba :
    stepView (State.reset.withFetchWord 40 0x04030201FF)
      = some (.stream, 19, 1, { r := 1, g := 2, b := 3, a := 4 }, [1, 2, 3, 4]) := by decide

/-! ### Single steps: the units (95_test_vectors.md sections 2.4 to 2.8) -/

/-- V-L2's second unit: RGB carries alpha 40 from PREV. -/
theorem test_rgb_keeps_prev_alpha :
    stepView (withPrev { r := 1, g := 2, b := 3, a := 40 } (streaming 1 1 4 [0xFE, 7, 8, 9]))
      = some (.done, 18, 1, { r := 7, g := 8, b := 9, a := 40 }, [7, 8, 9, 40])
      ∧ stepCache 52 (withPrev { r := 1, g := 2, b := 3, a := 40 } (streaming 1 1 4 [0xFE, 7, 8, 9]))
        = some { r := 7, g := 8, b := 9, a := 40 } := by decide

/-- V-L1: three bytes out with C = 3, and the initial alpha 255. -/
theorem test_rgb_three_channels :
    stepView (streaming 1 1 3 [0xFE, 1, 2, 3]) = some (.done, 18, 1, { r := 1, g := 2, b := 3, a := 255 }, [1, 2, 3]) := by
  decide

/-- S1. -/
theorem test_rgba_verbatim :
    stepView (streaming 1 1 4 [0xFF, 10, 20, 30, 40])
      = some (.done, 19, 1, { r := 10, g := 20, b := 30, a := 40 }, [10, 20, 30, 40])
      ∧ stepCache 12 (streaming 1 1 4 [0xFF, 10, 20, 30, 40]) = some { r := 10, g := 20, b := 30, a := 40 } := by decide

/-- V-I4's middle step: INDEX of an empty slot writes (0,0,0,0) over another pixel of slot 0. -/
theorem test_index_empty_slot_writes_slot_zero :
    stepCache 0 (withPrev { r := 0, g := 0, b := 0, a := 64 } (streaming 2 1 4 [5, 0])) = some Pixel.zero := by decide

/-- R160: slot 0, as V-I4's first unit leaves it, is given verbatim. -/
theorem test_index_reads_entry :
    stepView (withPrev { r := 0, g := 0, b := 0, a := 64 } (streaming 1 1 4 [0]))
      = some (.done, 15, 1, { r := 0, g := 0, b := 0, a := 64 }, [0, 0, 0, 64]) := by decide

/-- V-D4: mixed signs tell the field positions apart. -/
theorem test_diff_mixed_signs :
    stepView (withPrev { r := 10, g := 20, b := 30, a := 40 } (streaming 1 1 4 [0x47]))
      = some (.done, 15, 1, { r := 8, g := 19, b := 31, a := 40 }, [8, 19, 31, 40]) := by decide

/-- S5: red 0 less 2 is 254. -/
theorem test_diff_wraps : stepView (streaming 1 1 4 [0x4A])
    = some (.done, 15, 1, { r := 254, g := 0, b := 0, a := 255 }, [254, 0, 0, 255]) := by decide

/-- V-M2's second unit: the most positive deltas, alpha 128 kept. -/
theorem test_luma_most_positive :
    stepView (withPrev { r := 250, g := 250, b := 250, a := 128 } (streaming 1 1 4 [0xBF, 0xFF]))
      = some (.done, 16, 1, { r := 32, g := 25, b := 32, a := 128 }, [32, 25, 32, 128]) := by decide

/-- V-M5's second unit: the red and the blue nibble differ. -/
theorem test_luma_nibbles :
    stepView (streaming 1 1 4 [0xA1, 0x7A])
      = some (.done, 16, 1, { r := 0, g := 1, b := 3, a := 255 }, [0, 1, 3, 255]) := by decide

/-- V-R2's second unit, in a 2x1 image: the run ends exactly at W*H, one pixel a repeat. -/
theorem test_run_repeats_prev :
    stepView (withPrev { r := 1, g := 2, b := 3, a := 4 } (streaming 2 1 4 [0xC1]))
      = some (.done, 15, 2, { r := 1, g := 2, b := 3, a := 4 }, [1, 2, 3, 4, 1, 2, 3, 4]) := by decide

/-- V-R1: a first RUN repeats the initial PREV and caches it in slot 53. -/
theorem test_run_first_caches_slot_53 :
    stepCache 53 (streaming 1 1 4 [0xC0]) = some { r := 0, g := 0, b := 0, a := 255 } := by decide

/-! ### Single steps: the errors of an opcode step -/

/-- V-R3, in a 2x1 image: a RUN of 3 raises and emits nothing. -/
theorem test_run_overrun :
    stepError (streaming 2 1 4 [0xC2]) = some (.error, .malformedStream, 14)
      ∧ stepView (streaming 2 1 4 [0xC2]) = some (.error, 14, 0, { r := 0, g := 0, b := 0, a := 255 }, []) := by decide

/-- V-L4 and V-L5, and S4 moved to the first unit. -/
theorem test_truncated_units :
    stepError (streaming 1 1 3 [0xFE, 1, 2]) = some (.error, .truncatedInput, 14)
      ∧ stepError (streaming 1 1 4 [0xFF, 1, 2, 3]) = some (.error, .truncatedInput, 14)
      ∧ stepError (streaming 1 1 4 [0xA0]) = some (.error, .truncatedInput, 14) := by decide

/-- V-L6 moved to the first unit: the stream ends with a pixel owed. -/
theorem test_end_of_input : stepError (streaming 1 1 4 []) = some (.error, .malformedStream, 14) := by decide

/-! ### Single steps: the header (95_test_vectors.md section 2.1 and S8) -/

/-- S8's second row: the fields are read big-endian, and IPTR is 14. -/
theorem test_header_commit :
    (after (step (started (serializeHeader 640 480 3 1 ++ [0xC0])))).map
        (fun t => (t.w, t.h, t.c, t.cs, t.iptr)) = some (640, 480, 3, 1, 14)
      ∧ stepView (started (serializeHeader 640 480 3 1 ++ [0xC0])) = some (.stream, 14, 0, Pixel.prev0, []) := by decide

/-- E1, E13, E11, E14, E12 and E5: rows 1, 3, 5, 7, 10 and 12 of R200. -/
theorem test_header_truncated :
    stepError (started [0x71, 0x6F, 0x69]) = some (.error, .truncatedInput, 0)
      ∧ stepError (started ((serializeHeader 1 1 4 0).take 6)) = some (.error, .truncatedInput, 4)
      ∧ stepError (started ((serializeHeader 1 1 4 0).take 10)) = some (.error, .truncatedInput, 8)
      ∧ stepError (started ((serializeHeader 1 1 4 0).take 12)) = some (.error, .truncatedInput, 12)
      ∧ stepError (started ((serializeHeader 1 1 4 0).take 13)) = some (.error, .truncatedInput, 13)
      ∧ stepError (started (serializeHeader 1 1 4 0)) = some (.error, .truncatedInput, 14) := by decide

/-- E2, E3, E3b, E9 and E4: rows 2, 4, 6, 9 and 11. -/
theorem test_header_bad_fields :
    stepError (started ([0x71, 0x6F, 0x69, 0x46, 0, 0, 0, 1, 0, 0, 0, 1, 4, 0, 0xFF, 1, 2, 3, 4]))
        = some (.error, .invalidMagic, 0)
      ∧ stepError (started (serializeHeader 0 1 4 0 ++ [0xFF, 1, 2, 3, 4])) = some (.error, .malformedStream, 4)
      ∧ stepError (started (serializeHeader 1 0 4 0 ++ [0xFF, 1, 2, 3, 4])) = some (.error, .malformedStream, 8)
      ∧ stepError (started (serializeHeader 1000 1000 3 0 ++ [0xC0])) = some (.error, .malformedStream, 4)
      ∧ stepError (started (serializeHeader 1 1 4 2 ++ [0xFF, 1, 2, 3, 4])) = some (.error, .malformedStream, 13) := by decide

/-- S3b, E4b and E3c: row 8, before the length check H7, and after the width check H2. -/
theorem test_header_check_order :
    stepError (started (serializeHeader 1 1 5 0)) = some (.error, .unsupportedChannelCount, 12)
      ∧ stepError (started (serializeHeader 1 1 2 0 ++ [0xFF, 1, 2, 3, 4])) = some (.error, .unsupportedChannelCount, 12)
      ∧ stepError (started (serializeHeader 0 1 5 0 ++ [0xFF, 1, 2, 3, 4])) = some (.error, .malformedStream, 4) := by decide

/-! ### Single steps: the host (95_test_vectors.md section 2.9, R233) -/

/-- V-H2's last move and V-H4. -/
theorem test_host_abort_and_reset :
    (after (step { streaming 4 1 4 [0xC1] with host := [.command .abort] })).map (fun t => (t.phase, t.w, t.iptr))
        = some (.idle, 4, 14)
      ∧ (after (step { streaming 4 1 4 [0xC1] with host := [.command .reset] })).map (fun t => (t.phase, t.w, t.iptr))
        = some (.idle, 0, 0) := by decide

/-- V-H3's START: from ERROR into a new decode. -/
theorem test_host_start_from_error :
    (after (step { raise .malformedStream 13 (started (serializeHeader 1 1 4 2)) with host := [.command (.start 14)] })).map
        (fun t => (t.phase, t.errKind, t.errOff, t.l)) = some (.header, .noError, 0, 14) := by decide

/-- The host's duties: a write of IN during a decode, and a START over bytes never placed. -/
theorem test_host_duties :
    refusal (step { streaming 4 1 4 [0xC1] with host := [.command (.placeInput 0 [1])] }) = some .inputChangedDuringDecode
      ∧ refusal (step { State.reset with host := [.command (.start 1)] }) = some (.startInputNotResident 1) := by decide

/-- The host lets the block step, and the move is gone. -/
theorem test_host_let_run :
    (after (step { streaming 1 1 4 [0xC0] with host := [.letRun, .command .abort] })).map (fun t => (t.phase, t.host))
      = some (.done, [.command .abort]) := by decide

/-! ### Witnesses: the invariant -/

/-- An answer whose next state has a property. -/
theorem exists_next {o : Host.Outcome State Fault Refusal} {P : State → Prop} [DecidablePred P]
    (h : (after o).any (fun t => decide (P t)) = true) : ∃ t, o = .next t ∧ P t := by
  cases o with
  | next t => exact ⟨t, rfl, by simpa [after] using h⟩
  | fault e => simp [after] at h
  | refused e => simp [after] at h

theorem reset_inv : State.reset.Inv :=
  ⟨by decide, by decide, by decide, by simp [State.reset], by decide, by simp [State.reset, Memory.resident],
    cacheLaw_replicate rfl, by simp [State.reset], by simp [State.reset], by simp [State.reset], by simp [State.reset]⟩

theorem started_inv {file : List Byte} (h : file.length ≤ 16777216) : (started file).Inv := by
  refine inv_start (inv_placeInput reset_inv rfl (by simpa [State.reset, Params.chosen] using h)) h fun a ha => ?_
  simp [Memory.read_writeBytes, ha]

theorem streaming_inv {w h : Dim} {c : Byte} {bytes : List Byte} (hw : w ≠ 0) (hh : h ≠ 0) (hc : c = 3 ∨ c = 4)
    (hcap : w.toNat * h.toNat * c.toNat ≤ 1000000) (hn : 1 ≤ bytes.length) (hm : bytes.length ≤ 16777202) :
    (streaming w h c bytes).Inv := by
  have e : (serializeHeader w h c 0 ++ bytes).length = 14 + bytes.length := by
    simp [serializeHeader, magic, dimBytes]; omega
  refine inv_commitHeader (started_inv (by omega)) rfl hw hh hc (by simp) hcap ?_
  show 15 ≤ (serializeHeader w h c 0 ++ bytes).length
  omega

/-- A unit of a streaming state is a step that keeps the invariant. -/
theorem step_inv {s t : State} (i : s.Inv) (hp : s.phase = .stream) (hh : s.host = []) (h : step s = .next t) : t.Inv := by
  rw [step_of_no_move hh, blockStep, hp] at h
  exact inv_streamStep i hp h

/-- S1's state before its one unit. -/
abbrev beforeS1 : State := streaming 1 1 4 [0xFF, 10, 20, 30, 40]

theorem beforeS1_inv : beforeS1.Inv := streaming_inv (by decide) (by decide) (by decide) (by decide) (by decide) (by decide)

/-- V-R2's state before its two units, in a 2x1 image. -/
abbrev beforeRun : State := streaming 2 1 4 [0xFF, 1, 2, 3, 4, 0xC0]

theorem beforeRun_inv : beforeRun.Inv :=
  streaming_inv (by decide) (by decide) (by decide) (by decide) (by decide) (by decide)

/-- A decode in DONE that meets the invariant (S1). -/
theorem done_inv : ∃ t, step beforeS1 = .next t ∧ t.Inv ∧ t.phase = .done ∧ t.host = [] := by
  obtain ⟨t, e, h⟩ := exists_next (o := step beforeS1) (P := fun t => t.phase = .done ∧ t.host = []) (by decide)
  exact ⟨t, e, step_inv beforeS1_inv rfl rfl e, h⟩

/-- A decode with a pixel emitted and a pixel owed that meets the invariant. -/
theorem midway_inv : ∃ t : State, t.Inv ∧ t.phase = .stream ∧ t.opix = 1 ∧ t.w = 2 ∧ t.h = 1 ∧ t.host = [] := by
  obtain ⟨t, e, h⟩ := exists_next (o := step beforeRun)
    (P := fun t => t.phase = .stream ∧ t.opix = 1 ∧ t.w = 2 ∧ t.h = 1 ∧ t.host = []) (by decide)
  exact ⟨t, step_inv beforeRun_inv rfl rfl e, h⟩

/-- A decode in ERROR that meets the invariant (E4). -/
theorem error_inv : (raise .malformedStream 13 (started (serializeHeader 1 1 4 2))).Inv :=
  inv_raise (started_inv (by decide)) (by decide) (by decide)

/-! ### Witnesses: encoding -/

theorem witness_DecodeInvertsEncode :
    (Instr.rgb 255 0 1).wf = true ∧ (Instr.rgba 0 255 1 2).wf = true ∧ (Instr.index 63).wf = true ∧
      (Instr.diff (-2) 1 0).wf = true ∧ (Instr.luma 31 (-8) 7).wf = true ∧ (Instr.run 62).wf = true := by decide

theorem witness_EncodeInvertsDecode : decode [0xBF, 0x0F, 9] = .ok (.luma 31 (-8) 7, [9]) := by decide

theorem witness_DecodeRefusesOnlyMissingBytes :
    (∃ r, decode [0xFE, 1, 2] = .error r) ∧ ¬ [1, 2, 3].length + 1 < unitLen (classify 0xFE) :=
  ⟨⟨_, rfl⟩, by decide⟩

/-- Both ends of every range of opcode bytes. -/
theorem witness_OpcodeByteDecidesKindAndLength :
    decode [0x00, 9] = .ok (.index 0, [9]) ∧ decode [0x3F] = .ok (.index 63, []) ∧
      decode [0x40, 9] = .ok (.diff (-2) (-2) (-2), [9]) ∧ decode [0x7F] = .ok (.diff 1 1 1, []) ∧
      decode [0x80, 0, 9] = .ok (.luma (-32) (-8) (-8), [9]) ∧ decode [0xBF, 0xFF] = .ok (.luma 31 7 7, []) ∧
      decode [0xC0, 9] = .ok (.run 1, [9]) ∧ decode [0xFD] = .ok (.run 62, []) ∧
      decode [0xFE, 1, 2, 3, 9] = .ok (.rgb 1 2 3, [9]) ∧ decode [0xFF, 1, 2, 3, 4, 9] = .ok (.rgba 1 2 3 4, [9]) := by
  decide

/-! ### Witnesses: the header step -/

/-- A 2x1 file with one stream byte, L = 15: with C = 3 and CS = 1, and with C = 4 and CS = 0. -/
theorem witness_HeaderRoundTrip :
    (let s := started (serializeHeader 2 1 3 1 ++ [0xC0]);
      s.phase = .header ∧ s.host = [] ∧ (2 : Dim).toNat * (1 : Dim).toNat * (3 : Byte).toNat ≤ s.params.pOutCap ∧ 15 ≤ s.l ∧
        placed s 0 (serializeHeader 2 1 3 1)) ∧
    (let s := started (serializeHeader 2 1 4 0 ++ [0xC0]);
      s.phase = .header ∧ s.host = [] ∧ (2 : Dim).toNat * (1 : Dim).toNat * (4 : Byte).toNat ≤ s.params.pOutCap ∧ 15 ≤ s.l ∧
        placed s 0 (serializeHeader 2 1 4 0)) := by
  unfold placed; decide

/-- A file of W = 2, H = 1, C = 4, CS = 0 cut short at `n` bytes. -/
abbrev cut (n : Nat) : State := started ((serializeHeader 2 1 4 0).take n)

/-- Every clause, at both ends of its range of L. -/
theorem witness_ShortHeaderRaisesTruncated :
    ((cut 0).l < 4 ∧ (cut 3).l = 3 ∧ (cut 0).phase = .header ∧ (cut 0).host = []) ∧
    (placed (cut 4) 0 magic ∧ (cut 4).l = 4 ∧ placed (cut 7) 0 magic ∧ (cut 7).l = 7) ∧
    (placed (cut 8) 0 magic ∧ placed (cut 8) 4 (dimBytes 2) ∧ (cut 8).l = 8 ∧
      placed (cut 11) 0 magic ∧ placed (cut 11) 4 (dimBytes 2) ∧ (cut 11).l = 11) ∧
    (placed (cut 12) 0 magic ∧ placed (cut 12) 4 (dimBytes 2) ∧ placed (cut 12) 8 (dimBytes 1) ∧ (cut 12).l = 12) ∧
    (placed (cut 13) 0 magic ∧ placed (cut 13) 4 (dimBytes 2) ∧ placed (cut 13) 8 (dimBytes 1) ∧ placed (cut 13) 12 [4] ∧
      2 * 1 * 4 ≤ (cut 13).params.pOutCap ∧ (cut 13).l = 13) ∧
    (placed (cut 14) 0 magic ∧ placed (cut 14) 4 (dimBytes 2) ∧ placed (cut 14) 8 (dimBytes 1) ∧ placed (cut 14) 12 [4] ∧
      placed (cut 14) 13 [0] ∧ 2 * 1 * 4 ≤ (cut 14).params.pOutCap ∧ (cut 14).l = 14 ∧ (cut 14).phase = .header ∧
      (cut 14).host = []) := by
  unfold placed; refine ⟨?_, ?_, ?_, ?_, ?_, ?_⟩ <;> decide

/-- A file of the given fields, cut at `n` bytes. -/
abbrev bad (w h : Dim) (c cs : Byte) (n : Nat) : State := started ((serializeHeader w h c cs).take n)

/-- Every clause, at the least L it allows. -/
theorem witness_BadHeaderFieldRaisesItsError :
    (let s := started [0x71, 0x6F, 0x69, 0x46];
      4 ≤ s.l ∧ [0x71, 0x6F, 0x69, 0x46] ≠ magic ∧ placed s 0 [0x71, 0x6F, 0x69, 0x46] ∧ s.phase = .header ∧ s.host = []) ∧
    (let s := bad 0 1 4 0 8; 8 ≤ s.l ∧ placed s 0 magic ∧ placed s 4 [0, 0, 0, 0]) ∧
    (let s := bad 1 0 4 0 12; 12 ≤ s.l ∧ placed s 0 magic ∧ placed s 4 (dimBytes 1) ∧ placed s 8 [0, 0, 0, 0]) ∧
    (let s := bad 1 1 5 0 13;
      13 ≤ s.l ∧ placed s 0 magic ∧ placed s 4 (dimBytes 1) ∧ placed s 8 (dimBytes 1) ∧ placed s 12 [5]) ∧
    (let s := bad 1000 1000 3 0 13;
      13 ≤ s.l ∧ placed s 0 magic ∧ placed s 4 (dimBytes 1000) ∧ placed s 8 (dimBytes 1000) ∧ placed s 12 [3] ∧
        s.params.pOutCap < 1000 * 1000 * 3) ∧
    (let s := bad 1 1 4 2 14;
      14 ≤ s.l ∧ placed s 0 magic ∧ placed s 4 (dimBytes 1) ∧ placed s 8 (dimBytes 1) ∧ placed s 12 [4] ∧ placed s 13 [2] ∧
        1 * 1 * 4 ≤ s.params.pOutCap ∧ s.phase = .header ∧ s.host = []) := by
  unfold placed; refine ⟨?_, ?_, ?_, ?_, ?_, ?_⟩ <;> decide

theorem witness_OnlyTheHeaderRaisesMagicAndChannelErrors :
    (∃ t, step (started [0x71, 0x6F, 0x69, 0x46]) = .next t ∧ t.phase = .error ∧ t.errKind = .invalidMagic) ∧
    (∃ t, step (bad 1 1 5 0 13) = .next t ∧ t.phase = .error ∧ t.errKind = .unsupportedChannelCount) :=
  ⟨exists_next (by decide), exists_next (by decide)⟩

theorem witness_HeaderStepLeavesTheDecoderAlone :
    (∃ t, step (started (serializeHeader 2 1 3 1 ++ [0xC0])) = .next t ∧ t.phase = .stream) ∧
    (∃ t, step (started []) = .next t ∧ t.phase = .error) :=
  ⟨exists_next (by decide), exists_next (by decide)⟩

/-! ### Witnesses: the opcode step and the units -/

/-- S1's unit ends exactly at L. -/
theorem witness_StepRunsTheDecodedUnit :
    (Instr.rgba 10 20 30 40).wf = true ∧ beforeS1.phase = .stream ∧ beforeS1.host = [] ∧
      placed beforeS1 beforeS1.iptr (encode (.rgba 10 20 30 40)) ∧
      beforeS1.iptr + (encode (.rgba 10 20 30 40)).length = beforeS1.l ∧
      { beforeS1 with host := [.letRun] }.host = .letRun :: [] := by
  unfold placed; decide

theorem witness_EndOfInputRaisesMalformed :
    (streaming 1 1 4 []).phase = .stream ∧ (streaming 1 1 4 []).host = [] ∧ (streaming 1 1 4 []).iptr = (streaming 1 1 4 []).l := by
  decide

/-- One byte short, for each unit that has extra bytes. -/
theorem witness_MissingExtraByteRaisesTruncated :
    (let s := streaming 1 1 4 [0xFE, 1, 2];
      s.phase = .stream ∧ s.host = [] ∧ Memory.read s.inMem s.iptr = some 0xFE ∧ s.l + 1 = s.iptr + unitLen (classify 0xFE)) ∧
    (let s := streaming 1 1 4 [0xFF, 1, 2, 3];
      s.phase = .stream ∧ s.host = [] ∧ Memory.read s.inMem s.iptr = some 0xFF ∧ s.l + 1 = s.iptr + unitLen (classify 0xFF)) ∧
    (let s := streaming 1 1 4 [0xA0];
      s.iptr < s.l ∧ Memory.read s.inMem s.iptr = some 0xA0 ∧ s.l + 1 = s.iptr + unitLen (classify 0xA0)) := by decide

theorem witness_OverrunRaisesMalformed :
    beforeRun.w.toNat * beforeRun.h.toNat + 1 = beforeRun.opix + emitCount (.run 3) := by decide

/-- Each kind with extra bytes cut one byte short, and a RUN of 3 with 2 pixels owed: the hypotheses, with the next state in ERROR. -/
theorem witness_WhichUnitsCanFailWhichCheck :
    ∀ x ∈ [((0xFE : Byte), [(0xFE : Byte), 1, 2]), (0xFF, [0xFF, 1, 2, 3]), (0xA0, [0xA0]), (0xC2, [0xC2])],
      let s := streaming 2 1 4 x.2
      s.phase = .stream ∧ s.host = [] ∧ s.iptr < s.l ∧ Memory.read s.inMem s.iptr = some x.1 ∧
        s.opix < s.w.toNat * s.h.toNat ∧ ∃ t, step s = .next t ∧ t.phase = .error := by
  intro x hx
  simp only [List.mem_cons, List.not_mem_nil, or_false] at hx
  rcases hx with rfl | rfl | rfl | rfl <;>
    exact ⟨rfl, rfl, by decide, by decide, by decide, exists_next (by decide)⟩

theorem witness_ErrorEntryWritesThreeRegisters :
    (streaming 1 1 4 [0xA0]).host = [] ∧ (streaming 1 1 4 [0xA0]).phase ≠ .error ∧
      ∃ t, step (streaming 1 1 4 [0xA0]) = .next t ∧ t.phase = .error :=
  ⟨rfl, by decide, exists_next (by decide)⟩

/-- Room for the last pixel, and each error clause one byte short. -/
theorem witness_RgbUnit :
    (withPrev { r := 1, g := 2, b := 3, a := 40 } (streaming 1 1 3 [0xFE, 7, 8, 9])).opix + 1 = (1 : Dim).toNat * (1 : Dim).toNat ∧
    (let s := streaming 1 1 3 [0xFE, 7, 8];
      s.phase = .stream ∧ s.host = [] ∧ s.iptr < s.l ∧ placed s s.iptr [0xFE] ∧ s.l + 1 = s.iptr + 4) ∧
    (streaming 1 1 3 []).iptr = (streaming 1 1 3 []).l := by
  unfold placed; decide

theorem witness_RgbaUnit :
    beforeS1.opix + 1 = beforeS1.w.toNat * beforeS1.h.toNat ∧
    (let s := streaming 1 1 4 [0xFF, 7, 8, 9];
      s.phase = .stream ∧ s.host = [] ∧ s.iptr < s.l ∧ placed s s.iptr [0xFF] ∧ s.l + 1 = s.iptr + 5) ∧
    (streaming 1 1 4 []).iptr = (streaming 1 1 4 []).l := by
  unfold placed; decide

theorem witness_IndexUnit :
    (let s := streaming 1 1 4 [0x3F];
      s.opix + 1 = s.w.toNat * s.h.toNat ∧ s.phase = .stream ∧ s.host = [] ∧ s.iptr + 1 = s.l ∧
        placed s s.iptr [BitVec.ofNat 8 63]) ∧
      (streaming 1 1 4 []).phase = .stream ∧ (streaming 1 1 4 []).host = [] ∧
      (streaming 1 1 4 []).iptr = (streaming 1 1 4 []).l := by
  unfold placed; decide

theorem witness_DiffUnit :
    (streaming 1 1 4 [0x7F]).opix + 1 = (1 : Dim).toNat * (1 : Dim).toNat ∧ (streaming 1 1 4 []).phase = .stream ∧
      (streaming 1 1 4 []).host = [] ∧ (streaming 1 1 4 []).iptr = (streaming 1 1 4 []).l := by decide

theorem witness_LumaUnit :
    (streaming 1 1 4 [0xBF, 0xFF]).opix + 1 = (1 : Dim).toNat * (1 : Dim).toNat ∧
    (let s := streaming 1 1 4 [0xBF];
      s.phase = .stream ∧ s.host = [] ∧ s.iptr < s.l ∧ placed s s.iptr [BitVec.ofNat 8 (128 + 63)] ∧ s.l + 1 = s.iptr + 2) ∧
    (streaming 1 1 4 []).iptr = (streaming 1 1 4 []).l := by
  unfold placed; decide

/-- The longest run with exactly its room, the shortest, and the longest with one pixel too few. -/
theorem witness_RunUnit :
    (streaming 62 1 4 [0xFD]).opix + 62 = (62 : Dim).toNat * (1 : Dim).toNat ∧
    (streaming 1 1 3 [0xC0]).opix + 1 = (1 : Dim).toNat * (1 : Dim).toNat ∧
    (61 : Dim).toNat * (1 : Dim).toNat < (streaming 61 1 4 [0xFD]).opix + 62 ∧
    (streaming 62 1 4 [0xFD]).c = 4 ∧ (streaming 1 1 3 [0xC0]).c = 3 ∧
    (let s := streaming 62 1 4 [0xFD];
      s.phase = .stream ∧ s.host = [] ∧ s.iptr + 1 = s.l ∧ placed s s.iptr [BitVec.ofNat 8 (191 + 62)]) ∧
    (streaming 1 1 4 []).iptr = (streaming 1 1 4 []).l := by
  unfold placed; decide

theorem witness_FirstRunCachesInitialPrev :
    (let s := streaming 2 1 4 [0xC0]; s.opix + 1 < s.w.toNat * s.h.toNat ∧ s.prev = { r := 0, g := 0, b := 0, a := 255 } ∧
        s.cache = Vector.replicate 64 { r := 0, g := 0, b := 0, a := 0 }) ∧
    ∃ s : State, s.Decoding ∧ 0 < s.opix ∧ s.opix + 1 = s.w.toNat * s.h.toNat := by
  refine ⟨⟨by decide, rfl, rfl⟩, ?_⟩
  obtain ⟨t, i, hp, ho, hw, hh, -⟩ := midway_inv
  exact ⟨t, (i.streaming hp).1, by omega, by simp [ho, hw, hh]⟩

/-- `fits`, at the last pixel, for a unit of each kind (for UnitCachesItsPixel, UnitAdvancesByItsLength and UnitFrame). -/
theorem witness_fits :
    fits (.rgb 1 2 3) beforeS1 ∧ fits (.rgba 1 2 3 4) beforeS1 ∧ fits (.index 63) beforeS1 ∧ fits (.diff 1 1 1) beforeS1 ∧
      fits (.luma 31 7 7) beforeS1 ∧ fits (.run 62) (streaming 62 1 4 [0xFD]) := by
  unfold fits; decide

theorem witness_HashNeedsSixBits : 6 ≤ 6 ∧ 6 ≤ 13 := by decide

theorem witness_EmitWritesPixelsInOrder :
    beforeRun.opix + 2 = beforeRun.w.toNat * beforeRun.h.toNat ∧ beforeRun.c = 4 ∧ (streaming 1 1 3 [0xC0]).c = 3 ∧
      (streaming 1 1 3 [0xC0]).opix + 1 = (1 : Dim).toNat * (1 : Dim).toNat := by decide

/-- A unit that ends the decode, one that does not, and a state in DONE. -/
theorem witness_LastPixelEndsTheDecode :
    (beforeS1.phase = .stream ∧ fits (.rgba 10 20 30 40) beforeS1) ∧
    (beforeRun.phase = .stream ∧ fits (.rgba 1 2 3 4) beforeRun) ∧
    ∃ t, step beforeS1 = .next t ∧ t.phase = .done ∧ t.host = [] := by
  refine ⟨⟨rfl, by unfold fits; decide⟩, ⟨rfl, by unfold fits; decide⟩, exists_next (by decide)⟩

/-- T1 of 95_test_vectors.md, and the same input without its end marker. -/
theorem witness_TrailingBytesAreIgnored :
    let s := streaming 1 1 4 [0xFF, 10, 20, 30, 40, 0, 0, 0, 0, 0, 0, 0, 1]
    s.phase = .stream ∧ s.host = [] ∧
      ∃ t, step s = .next t ∧ t.phase = .done ∧ ∀ a < t.iptr, Memory.read beforeS1.inMem a = Memory.read s.inMem a :=
  ⟨rfl, rfl, exists_next (by decide)⟩

theorem witness_ChannelCountOnlyShapesOutput : fits (.rgb 1 2 3) (streaming 1 1 3 [0xFE, 1, 2, 3]) := by
  unfold fits; decide

theorem witness_AlphaStaysOpaque :
    fits (.rgba 1 2 3 255) beforeRun ∧ beforeRun.prev.a = 255 ∧
      (let s := withPrev { r := 9, g := 8, b := 7, a := 255 } beforeRun;
        fits (.index 41) s ∧ s.prev.a = 255 ∧ s.cache[41].a = 255) := by
  unfold fits; decide

theorem witness_DeltaLanesWrapIndependently :
    (streaming 1 1 4 [0x7F]).opix < (1 : Dim).toNat * (1 : Dim).toNat ∧ (streaming 1 1 4 [0x7F]).phase = .stream := by decide

/-! ### Witnesses: the whole machine -/

/-- A step from every phase in which the invariant holds. -/
theorem witness_StepKeepsTheInvariant :
    (State.reset.Inv ∧ ∃ t, step State.reset = .next t) ∧
    ((started [0x71]).Inv ∧ ∃ t, step (started [0x71]) = .next t) ∧
    (beforeS1.Inv ∧ ∃ t, step beforeS1 = .next t) :=
  ⟨⟨reset_inv, _, rfl⟩, ⟨started_inv (by decide), _, rfl⟩, beforeS1_inv, _, rfl⟩

/-- A state with the invariant that steps, and one whose host breaks a duty. -/
theorem witness_NoFaultUnderTheInvariant :
    beforeS1.Inv ∧ { State.reset with host := [.command (.start 1)] }.Inv :=
  ⟨beforeS1_inv, ⟨by decide, by decide, by decide, by simp [State.reset], by decide, by simp [State.reset, Memory.resident],
    cacheLaw_replicate rfl, by simp [State.reset], by simp [State.reset], by simp [State.reset], by simp [State.reset]⟩⟩

theorem witness_CacheLawIsKept : beforeS1.CacheLaw ∧ ∃ t, step beforeS1 = .next t :=
  ⟨beforeS1_inv.cache_law, _, rfl⟩

theorem witness_MemoriesStayCanonical :
    Memory.wf beforeS1.inMem ∧ Memory.wf beforeS1.outMem ∧ ∃ t, step beforeS1 = .next t :=
  ⟨beforeS1_inv.in_wf, beforeS1_inv.out_wf, _, rfl⟩

/-- The last bytes of OUT, and one byte past them. -/
theorem witness_MemWriteReadsBack :
    0 + [1, 2, 3, 4].length = beforeS1.w.toNat * beforeS1.h.toNat * beforeS1.c.toNat ∧
      beforeS1.w.toNat * beforeS1.h.toNat * beforeS1.c.toNat < 1 + [1, 2, 3, 4].length := by decide

theorem witness_OpcodeStepMovesForward : beforeS1.Inv ∧ beforeS1.phase = .stream ∧ beforeS1.host = [] :=
  ⟨beforeS1_inv, rfl, rfl⟩

/-- A state in ERROR with no move, with ABORT and with `letRun`. -/
theorem witness_ErrorAbsorbs :
    let s := raise .malformedStream 13 (started (serializeHeader 1 1 4 2))
    (s.phase = .error ∧ s.host = []) ∧
    (∃ t, step { s with host := [.command .abort] } = .next t ∧ t.phase ≠ .error) ∧
    (∃ t, step { s with host := [.letRun] } = .next t ∧ t.phase = .error) :=
  ⟨⟨rfl, rfl⟩, exists_next (by decide), exists_next (by decide)⟩

/-- A change of phase of each sort: by the host, by the header step, by an opcode step. -/
theorem witness_PhaseTransitions :
    (∃ t, step { beforeS1 with host := [.command .abort] } = .next t ∧ t.phase ≠ beforeS1.phase) ∧
    (∃ t, step (started [0x71]) = .next t ∧ t.phase ≠ (started [0x71]).phase) ∧
    (∃ t, step beforeS1 = .next t ∧ t.phase ≠ beforeS1.phase) :=
  ⟨exists_next (by decide), exists_next (by decide), exists_next (by decide)⟩

theorem witness_HeaderIsImmutableAfterParse :
    (∃ t, step (started (serializeHeader 2 1 3 1 ++ [0xC0])) = .next t ∧ t.w ≠ 0) ∧
    (∃ t, step { beforeS1 with host := [.command .reset] } = .next t ∧ t.w ≠ beforeS1.w) :=
  ⟨exists_next (by decide), exists_next (by decide)⟩

theorem witness_InputIsNeverWrittenByTheBlock :
    ∃ t, step { State.reset with host := [.command (.placeInput 0 [1])] } = .next t ∧ t.inMem ≠ State.reset.inMem :=
  exists_next (by decide)

/-- START on S1's file after another decode, and after reset, and one step of each. -/
theorem witness_DecodesOfEqualInputsAgree :
    let s := { beforeS1 with errOff := 5 }
    s.host = [] ∧ (started []).host = [] ∧
      ∃ t, steps 1 (startDecode 19 s) = .next t ∧ t.phase = .stream ∧ s.params = beforeS1.params ∧
        ∀ a < 19, Memory.read s.inMem a = Memory.read beforeS1.inMem a :=
  ⟨rfl, rfl, exists_next (by decide)⟩

/-- A whole file, and the shortest of files. -/
theorem witness_EveryDecodeEnds :
    ((started (serializeHeader 2 1 3 1 ++ [0xC0])).Inv ∧ (started (serializeHeader 2 1 3 1 ++ [0xC0])).phase = .header) ∧
    ((started []).Inv ∧ (started []).phase = .header ∧ (started []).host = []) :=
  ⟨⟨started_inv (by decide), rfl⟩, started_inv (by decide), rfl, rfl⟩

theorem witness_SuccessNeedsEnoughBytes : beforeS1.Inv ∧ ∃ t, steps 1 beforeS1 = .next t ∧ t.phase = .done :=
  ⟨beforeS1_inv, exists_next (by decide)⟩

theorem witness_StreamStepsAreUnitExecutions :
    (∀ i ∈ [Instr.rgba 1 2 3 4, .run 1], i.wf = true) ∧ beforeRun.phase = .stream ∧ beforeRun.host = [] ∧
      placed beforeRun beforeRun.iptr (encodeAll [.rgba 1 2 3 4, .run 1]) ∧
      beforeRun.iptr + (encodeAll [.rgba 1 2 3 4, .run 1]).length = beforeRun.l := by
  unfold placed; decide

/-- S1's file: one pixel. -/
theorem witness_RgbaImagesDecodeExactly :
    let s := started (serializeHeader 1 1 4 0 ++ [0xFF, 10, 20, 30, 40])
    let px : List Pixel := [{ r := 10, g := 20, b := 30, a := 40 }]
    s.Inv ∧ s.phase = .header ∧ s.host = [] ∧ px.length = (1 : Dim).toNat * (1 : Dim).toNat ∧
      (1 : Dim).toNat * (1 : Dim).toNat * 4 ≤ s.params.pOutCap ∧
      placed s 0 (serializeHeader 1 1 4 0 ++ encodeAll (px.map fun p => .rgba p.r p.g p.b p.a)) ∧
      14 + 5 * px.length = s.l :=
  ⟨started_inv (by decide), rfl, rfl, rfl, by decide, by unfold placed; decide, rfl⟩

/-! ### Witnesses: the host -/

theorem witness_StartInitialisesTheDecode :
    let s := { beforeS1 with host := [.command (.start 19)] }
    s.host = .command (.start 19) :: [] ∧ 19 ≤ s.params.pInMax ∧ ∀ a < 19, (Memory.read s.inMem a).isSome = true := by decide

theorem witness_AbortChangesOnlyPhase : { beforeS1 with host := [.command .abort] }.host = .command .abort :: [] := rfl

theorem witness_ResetCommandSetsEveryRegister : { beforeS1 with host := [.command .reset] }.host = .command .reset :: [] := rfl

/-- Every clause: a write during a decode, one byte past P_IN_MAX, a write that ends at P_IN_MAX, a START over P_IN_MAX by one, and
one over the placed input. -/
theorem witness_HostDutiesAreEnforced :
    beforeS1.phase = .stream ∧ State.reset.phase = .idle ∧
      State.reset.params.pInMax < 16777216 + [(1 : Byte)].length ∧ 16777215 + [(1 : Byte)].length ≤ State.reset.params.pInMax ∧
      State.reset.params.pInMax < 16777217 ∧ 20 ≤ beforeS1.params.pInMax ∧ ∃ a < 20, Memory.read beforeS1.inMem a = none := by
  decide

/-- STREAM, DONE, and ERROR with each kind. -/
theorem witness_HostReadsValidRegisters :
    beforeS1.phase = .stream ∧ (∃ t, step beforeS1 = .next t ∧ t.phase = .done) ∧
      ∀ k, (raise k 13 beforeS1).phase = .error ∧ (raise k 13 beforeS1).errKind = k :=
  ⟨rfl, exists_next (by decide), fun _ => ⟨rfl, rfl⟩⟩

/-- DONE, ERROR, and a phase that is neither. -/
theorem witness_DoneObservationIsTheImage :
    (∃ t : State, t.Inv ∧ t.phase = .done) ∧ (∃ t : State, t.Inv ∧ t.phase = .error) ∧
      ∃ t : State, t.Inv ∧ t.phase ≠ .done ∧ t.phase ≠ .error := by
  obtain ⟨t, -, i, hp, -⟩ := done_inv
  exact ⟨⟨t, i, hp⟩, ⟨_, error_inv, rfl⟩, _, reset_inv, by decide, by decide⟩

theorem witness_CursorsFitTheirWidths :
    (beforeS1.Inv ∧ beforeS1.phase = .stream) ∧ (∃ t : State, t.Inv ∧ t.phase = .done) ∧ ∃ t : State, t.Inv ∧ t.phase = .error := by
  obtain ⟨t, -, i, hp, -⟩ := done_inv
  exact ⟨⟨beforeS1_inv, rfl⟩, ⟨t, i, hp⟩, _, error_inv, rfl⟩

end Sys2Proof.Tests
end

section
/-! SUPPORT. The claims' own words for a failing step, a unit's pixel count and room, as the model's operations. -/

namespace Sys2Proof.Proofs

open Sys2Proof.Machine Sys2Proof.Claims

@[simp] theorem failedWith_eq_raise (k : ErrKind) (off : Nat) (s : State) : failedWith k off s = raise k off s := rfl

/-- The count an `Exec` returns is fixed by the unit alone (41_stream_cycle.md R125). -/
@[simp] theorem execResult_snd (i : Instr) (s : State) : (execResult i s).2 = emitCount i := by
  cases i <;> rfl

theorem fits_iff {i : Instr} {s : State} : fits i s ↔ s.opix + emitCount i ≤ s.pixelCount := Iff.rfl

/-- The whole effect of a unit with room for its pixels (41_stream_cycle.md R128 to R131). -/
theorem exec_of_fits {i : Instr} {s : State} (h : fits i s) :
    exec i s = .next (afterUnit i.kind (execResult i s).1 (emitCount i) s) := by
  have hroom : s.opix + (execResult i s).2 ≤ s.pixelCount := by rwa [execResult_snd, ← fits_iff]
  rw [exec_room hroom, execResult_snd]

/-! ### The step in STREAM and in DONE -/

theorem step_stream {s : State} (hp : s.phase = .stream) (hh : s.host = []) : step s = streamStep s := by
  rw [step_of_no_move hh, blockStep, hp]

/-- In DONE the block takes no step (R131). -/
theorem step_done {s : State} (hp : s.phase = .done) (hh : s.host = []) : step s = .next s := by
  rw [step_of_no_move hh, blockStep, hp]

theorem streamStep_of_error {s : State} {k : ErrKind} {off : Nat} (h : fetch s = .next (.error k off)) :
    streamStep s = .next (raise k off s) := by
  rw [streamStep, h, andThen_next]

theorem streamStep_of_unit {s : State} {i : Instr} (h : fetch s = .next (.unit i)) : streamStep s = exec i s := by
  rw [streamStep, h, andThen_next]

/-- An opcode step that does not end in ERROR fetched a unit and gave it its whole effect. -/
theorem streamStep_completes {s t : State} (h : streamStep s = .next t) (hp : t.phase ≠ .error) :
    ∃ i, fetch s = .next (.unit i) ∧ exec i s = .next t ∧ t.iptr = s.iptr + unitLen i.kind ∧ t.host = s.host := by
  obtain ⟨x, hx, hstep⟩ := andThen_eq_next.mp h
  cases x with
  | error k off =>
    cases hstep
    exact absurd rfl hp
  | unit i =>
    rcases exec_cases hstep with ⟨-, rfl⟩ | ⟨-, rfl⟩
    · exact absurd rfl hp
    · exact ⟨i, hx, hstep, rfl, rfl⟩

/-- In DONE the host observes the header's fields and W*H*C bytes (60_exceptions.md R219). -/
theorem observe_done {s : State} (hp : s.phase = .done) (n : Nat) :
    ∃ out, observe n s = some (.ok s.w s.h s.c s.cs out) ∧ out.length = s.outSize := by
  refine ⟨(List.range s.outSize).map fun a => hostReadOut n a s, ?_, by simp⟩
  rw [observe, hp]

/-! ### What a unit reads of IN -/

/-- A fetched unit depends on no byte of IN past its own (41_stream_cycle.md R123, R124). -/
theorem fetch_unit_congr {s : State} {i : Instr} {m : Memory} (h : fetch s = .next (.unit i))
    (hm : ∀ a < s.iptr + unitLen i.kind, Memory.read m a = Memory.read s.inMem a) :
    fetch { s with inMem := m } = .next (.unit i) := by
  rcases fetch_cases h with ⟨-, hx⟩ | ⟨b, -, hb, ⟨-, hx⟩ | ⟨j, ops, hl, hn, ho, hd, hk, -, hx⟩⟩
  · cases hx
  · cases hx
  · cases hx
    rw [hk] at hm
    have hpos := unitLen_pos (classify b)
    have hb' : Memory.read m s.iptr = some b := (hm _ (by omega)).trans hb
    have ho' : ∀ k < ops.length, Memory.read m (s.iptr + 1 + k) = ops[k]? := fun k hlt =>
      (hm _ (by omega)).trans (ho k hlt)
    exact fetch_unit (s := { s with inMem := m }) hb' hl hn ho' hd

/-- Executing a unit reads nothing of IN. -/
theorem exec_inMem {i : Instr} {s t : State} (h : exec i s = .next t) (m : Memory) :
    exec i { s with inMem := m } = .next { t with inMem := m } := by
  have hres : execResult i { s with inMem := m } = execResult i s := by cases i <;> rfl
  rcases exec_cases h with ⟨hn, rfl⟩ | ⟨hn, rfl⟩
  · exact exec_overrun (s := { s with inMem := m }) (hres ▸ hn)
  · rw [exec_room (s := { s with inMem := m }) (hres ▸ hn), hres]
    rfl

/-! ### The bytes of an emitted pixel -/

theorem pixel_bytes_take_length {c : Byte} (hc : c = 3 ∨ c = 4) (p : Pixel) :
    (p.bytes.take c.toNat).length = c.toNat := by
  rcases hc with rfl | rfl <;> rfl

/-- Channel byte `j` of the `k`-th of `n` emitted pixels stands at (OPIX+k)*C + j (41_stream_cycle.md R129). -/
theorem read_afterEmits {s : State} (hc : s.c = 3 ∨ s.c = 4) {n k j : Nat} (p : Pixel) (hk : k < n)
    (hj : j < s.c.toNat) :
    Memory.read (afterEmits n p s).outMem ((s.opix + k) * s.c.toNat + j) = p.bytes[j]? := by
  have hread := read_outAfter_inside (k := s.opix) (pixel_bytes_take_length hc p) s.outMem hk hj
  rwa [List.getElem?_take_of_lt hj] at hread

end Sys2Proof.Proofs
end

section
/-! PROOFS. The statements of 41_stream_cycle.md. -/

namespace Sys2Proof.Proofs

open Sys2Proof.Machine Sys2Proof.Claims

/-- Settles O14: the overrun branch of the common frame. -/
theorem overrunRaisesMalformed : Obligations.OverrunRaisesMalformed := by
  intro i s h
  have hover : s.pixelCount < s.opix + (execResult i s).2 := by rwa [execResult_snd]
  exact exec_overrun hover

/-- Settles O25: the one cache write of the common frame, read at every index. -/
theorem unitCachesItsPixel : Obligations.UnitCachesItsPixel := fun i s h =>
  ⟨_, exec_of_fits h, fun idx => cacheRead_cacheUpdate (execResult i s).1 idx s⟩

/-- Settles O28, from what OUT holds inside and outside the pixels of a run of emits. -/
theorem emitWritesPixelsInOrder : Obligations.EmitWritesPixelsInOrder := by
  constructor
  · intro p s
    rw [emitTimes]
    cases emit p s <;> rfl
  · intro n p s hn hroom hc
    have hn0 : n ≠ 0 := by omega
    have hlow : 3 ≤ s.c.toNat := by rcases hc with h | h <;> simp [h]
    refine ⟨_, emitTimes_eq hroom, ?_, fun k hk => ⟨?_, ?_, ?_, fun h4 => ?_⟩, fun a ha => ?_⟩
    · simp [afterEmits, hn0]
    · exact read_afterEmits hc p hk (j := 0) (by omega)
    · exact read_afterEmits hc p hk (j := 1) (by omega)
    · exact read_afterEmits hc p hk (j := 2) (by omega)
    · exact read_afterEmits hc p hk (j := 3) (by simp [h4])
    · exact read_outAfter_outside (pixel_bytes_le p _) s.outMem ha

/-- Settles O29: the advance by the length of the unit's kind. -/
theorem unitAdvancesByItsLength : Obligations.UnitAdvancesByItsLength := by
  intro i s h
  refine ⟨_, exec_of_fits h, ?_⟩
  rw [afterUnit_iptr]
  cases i <;> rfl

/-- Settles O31: the termination check of the common frame, and what a host finds in DONE. -/
theorem lastPixelEndsTheDecode : Obligations.LastPixelEndsTheDecode := by
  refine ⟨fun i s hp h => ⟨_, exec_of_fits h, ?_⟩, fun s hp hh => ⟨step_done hp hh, observe_done hp⟩⟩
  rw [afterUnit_phase, hp]
  by_cases hlast : s.opix + emitCount i = s.pixelCount
  · rw [if_pos hlast]
    exact ⟨iff_of_true rfl hlast, fun hne => absurd rfl hne⟩
  · rw [if_neg hlast]
    exact ⟨iff_of_false (by decide) hlast, fun _ => rfl⟩

/-- Settles O32: a step into DONE executed a fetched unit, and the fetch reads IN below the final IPTR only. -/
theorem trailingBytesAreIgnored : Obligations.TrailingBytesAreIgnored := by
  intro s t m hp hh hstep hdone hm
  rw [step_stream hp hh] at hstep
  obtain ⟨i, hfetch, hexec, hiptr, hhost⟩ := streamStep_completes hstep (by simp [hdone])
  have hfetch' := fetch_unit_congr hfetch (hiptr ▸ hm)
  constructor
  · rw [step_stream (s := { s with inMem := m }) hp hh, streamStep_of_unit hfetch']
    exact exec_inMem hexec m
  · exact step_done (s := { t with inMem := m }) hdone (hhost.trans hh)

/-- Settles O12: the fetch finds no opcode byte. -/
theorem endOfInputRaisesMalformed : Obligations.EndOfInputRaisesMalformed := by
  intro s hp hh hend
  rw [step_stream hp hh, streamStep_of_error (fetch_end hend), failedWith_eq_raise]

/-- Settles O13: the fetch stops at the bounds check, before any extra byte is read. -/
theorem missingExtraByteRaisesTruncated : Obligations.MissingExtraByteRaisesTruncated := by
  intro s b hp hh hlt hb hshort
  rw [step_stream hp hh, streamStep_of_error (fetch_truncated hlt hb hshort), failedWith_eq_raise]

/-- Settles O26; the bound is the sum at 255 in every channel. -/
theorem hashFormula : Obligations.HashFormula := by
  refine ⟨fun p => ⟨rfl, ?_⟩, by decide, by decide, by decide⟩
  have hr := p.r.isLt
  have hg := p.g.isLt
  have hb := p.b.isLt
  have ha := p.a.isLt
  omega

end Sys2Proof.Proofs
end

section
/-! SUPPORT. The claims' own words for the whole effect of a one-pixel unit and for a byte that stands in IN, as the model's
operations. -/

namespace Sys2Proof.Proofs

open Sys2Proof.Machine Sys2Proof.Claims

/-- The state `onePixel` writes out is what the common frame leaves after one emit (41_stream_cycle.md R128 to R131). -/
theorem onePixel_eq_afterUnit (k : Kind) (p : Pixel) (s : State) :
    onePixel p (unitLen k) s = afterUnit k p 1 s := rfl

/-- A unit that emits one pixel, with a pixel owed, has its whole effect. -/
theorem exec_onePixel {i : Instr} {s : State} (hone : emitCount i = 1) (h : s.opix < s.pixelCount) :
    exec i s = .next (onePixel (execResult i s).1 (unitLen i.kind) s) := by
  have hfits : fits i s := by rw [fits_iff, hone]; exact h
  rw [exec_of_fits hfits, hone, onePixel_eq_afterUnit]

theorem placed_singleton {s : State} {a : Nat} {b : Byte} :
    placed s a [b] ↔ Memory.read s.inMem a = some b := by
  simp [placed]

/-- A unit cut short by L raises TruncatedInput(IPTR), its length taken from the opcode byte's kind (41_stream_cycle.md R124). -/
theorem step_truncated_of_placed {s : State} {b : Byte} {k : Kind} (hk : classify b = k) (hp : s.phase = .stream)
    (hh : s.host = []) (hlt : s.iptr < s.l) (hb : placed s s.iptr [b]) (hshort : s.l < s.iptr + unitLen k) :
    step s = .next (failedWith .truncatedInput s.iptr s) := by
  subst hk
  exact missingExtraByteRaisesTruncated s b hp hh hlt (placed_singleton.mp hb) hshort

end Sys2Proof.Proofs
end

section
/-! PROOFS. The statements of 42_literals.md. -/

namespace Sys2Proof.Proofs

open Sys2Proof.Machine Sys2Proof.Claims

/-- Settles O18: the RGB case of the decoder, of the common frame, and of the two checks of the fetch. -/
theorem rgbUnit : Obligations.RgbUnit := by
  intro r g b s
  have hk : classify 0xFE = .rgb := by decide
  refine ⟨fun rest => ?decodes, fun hroom => ?completes, fun hp hh hlt hb hshort => ?truncated, fun hp hh hend => ?ends⟩
  case decodes => exact decode_rgb hk r g b rest
  case completes => exact exec_onePixel (i := .rgb r g b) rfl hroom
  case truncated => exact step_truncated_of_placed hk hp hh hlt hb hshort
  case ends => exact endOfInputRaisesMalformed s hp hh hend

/-- Settles O19: the RGBA case of the same four facts; PREV is not read. -/
theorem rgbaUnit : Obligations.RgbaUnit := by
  intro r g b a s
  have hk : classify 0xFF = .rgba := by decide
  refine ⟨fun rest => ?decodes, fun hroom => ?completes, fun hp hh hlt hb hshort => ?truncated, fun hp hh hend => ?ends⟩
  case decodes => exact decode_rgba hk r g b a rest
  case completes => exact exec_onePixel (i := .rgba r g b a) rfl hroom
  case truncated => exact step_truncated_of_placed hk hp hh hlt hb hshort
  case ends => exact endOfInputRaisesMalformed s hp hh hend

end Sys2Proof.Proofs
end

section
/-! SUPPORT. The decoding of an INDEX byte, and the step that finds the byte of any one-byte unit at IPTR. -/

namespace Sys2Proof.Proofs

open Sys2Proof.Machine Sys2Proof.Claims

/-- A byte `00iiiiii` is INDEX of its field, whatever follows it (30_encoding.md R74, R81). -/
theorem decode_index_byte (idx : Fin 64) (rest : List Byte) :
    decode (BitVec.ofNat 8 idx.val :: rest) = .ok (.index idx, rest) := by
  obtain ⟨hkind, hfield⟩ := index_byte idx
  rw [decode_index hkind, hfield, Fin.ofNat_val_eq_self]

/-- With the one byte of a unit at IPTR, a step is the unit's execution: there is no extra byte to miss (41_stream_cycle.md
R123, R124). -/
theorem step_exec_of_placed {s : State} {b : Byte} {i : Instr} (hlen : unitLen (classify b) = 1)
    (hd : decode [b] = .ok (i, [])) (hp : s.phase = .stream) (hh : s.host = []) (hlt : s.iptr < s.l)
    (hb : placed s s.iptr [b]) : step s = exec i s := by
  have hfetch : fetch s = .next (.unit i) :=
    fetch_unit (ops := []) (placed_singleton.mp hb) (by omega) (by simp [hlen]) (by simp) hd
  rw [step_stream hp hh, streamStep_of_unit hfetch]

end Sys2Proof.Proofs
end

section
/-! PROOFS. The statement of 43_index.md. -/

namespace Sys2Proof.Proofs

open Sys2Proof.Machine Sys2Proof.Claims

/-- Settles O20: the INDEX case of the decoder and of the common frame, and its fetch, which can only miss the opcode byte. -/
theorem indexUnit : Obligations.IndexUnit := by
  intro idx s
  have hlen : unitLen (classify (BitVec.ofNat 8 idx.val)) = 1 := by rw [(index_byte idx).1, unitLen]
  refine ⟨fun rest => ?decodes, fun hroom => ?completes, fun hp hh hlt hb => ?executes, fun hp hh hend => ?ends⟩
  case decodes => exact decode_index_byte idx rest
  case completes => exact exec_onePixel (i := .index idx) rfl hroom
  case executes => exact step_exec_of_placed hlen (decode_index_byte idx []) hp hh hlt hb
  case ends => exact endOfInputRaisesMalformed s hp hh hend

end Sys2Proof.Proofs
end

section
/-! SUPPORT. One lane of the delta reconstructor, the bytes of a LUMA unit, and the end of a unit that emits one pixel. -/

namespace Sys2Proof.Proofs

open Sys2Proof.Machine Sys2Proof.Claims

/-- A channel sum is the integer sum reduced modulo 256, above and below (00_scope.md R9). -/
theorem chAdd_toNat (x : Byte) (d : Int) : ((chAdd x d).toNat : Int) = ((x.toNat : Int) + d) % 256 := by
  have hnonneg : 0 ≤ ((x.toNat : Int) + d) % 256 := Int.emod_nonneg _ (by decide)
  rw [chAdd, BitVec.toNat_ofInt]
  exact Int.toNat_of_nonneg hnonneg

/-- Nothing is lost in the wrap: the opposite delta leads back. -/
theorem chAdd_neg_cancel (x : Byte) (d : Int) : chAdd (chAdd x d) (-d) = x := by
  have hsum := chAdd_toNat x d
  have hundo := chAdd_toNat (chAdd x d) (-d)
  have hx := x.isLt
  apply BitVec.eq_of_toNat_eq
  omega

/-- The opposite deltas undo a reconstruction (44_delta.md R172). -/
theorem deltaPixel_neg_cancel (dr dg db : Int) (p : Pixel) :
    deltaPixel (-dr) (-dg) (-db) (deltaPixel dr dg db p) = p := by
  simp only [deltaPixel, chAdd_neg_cancel]

/-- The opcode byte `10gggggg` of a LUMA unit, its field added to the tag (30_encoding.md R76). -/
theorem luma_opcode_byte (x : Fin 64) :
    classify (BitVec.ofNat 8 (128 + x.val)) = .luma ∧ field 5 0 (BitVec.ofNat 8 (128 + x.val)) = x.val := by
  revert x; decide

/-- The second byte `rrrrbbbb` of a LUMA unit, as a number (30_encoding.md R76). -/
theorem luma_second_byte (y z : Fin 16) :
    field 7 4 (BitVec.ofNat 8 (16 * y.val + z.val)) = y.val ∧
      field 3 0 (BitVec.ofNat 8 (16 * y.val + z.val)) = z.val := by
  revert y z; decide

/-- The bytes `10gggggg rrrrbbbb` are LUMA of the fields less their biases, whatever follows them (30_encoding.md R76, R81). -/
theorem decode_luma_bytes (x : Fin 64) (y z : Fin 16) (rest : List Byte) :
    decode (BitVec.ofNat 8 (128 + x.val) :: BitVec.ofNat 8 (16 * y.val + z.val) :: rest)
      = .ok (.luma ((x.val : Int) - 32) ((y.val : Int) - 8) ((z.val : Int) - 8), rest) := by
  obtain ⟨hkind, hgreen⟩ := luma_opcode_byte x
  obtain ⟨hred, hblue⟩ := luma_second_byte y z
  rw [decode_luma hkind, hgreen, hred, hblue]
  rfl

/-- A unit that emits one pixel, with a pixel owed, ends in STREAM or DONE and leaves the error registers alone. -/
theorem exec_onePixel_no_error {i : Instr} {s : State} (hone : emitCount i = 1) (hroom : s.opix < s.pixelCount)
    (hp : s.phase = .stream) :
    ∃ t, exec i s = .next t ∧ t.errKind = s.errKind ∧ t.errOff = s.errOff ∧ t.phase ≠ .error := by
  refine ⟨_, exec_onePixel hone hroom, rfl, rfl, ?_⟩
  rw [onePixel_eq_afterUnit, afterUnit_phase, hp]
  split <;> decide

end Sys2Proof.Proofs
end

section
/-! PROOFS. The statements of 44_delta.md. -/

namespace Sys2Proof.Proofs

open Sys2Proof.Machine Sys2Proof.Claims

/-- Settles O35: each lane is one channel sum, and both delta units take the one-pixel case of the common frame. -/
theorem deltaLanesWrapIndependently : Obligations.DeltaLanesWrapIndependently := by
  refine ⟨fun dr dg db p q => ?lanes, by decide, fun x y z s hroom hp => ⟨?diff, ?luma⟩⟩
  case lanes =>
    exact ⟨congrArg (chAdd · dr), congrArg (chAdd · dg), congrArg (chAdd · db), rfl,
      chAdd_toNat p.r dr, chAdd_toNat p.g dg, chAdd_toNat p.b db, deltaPixel_neg_cancel dr dg db p⟩
  case diff => exact exec_onePixel_no_error (i := .diff x y z) rfl hroom hp
  case luma => exact exec_onePixel_no_error (i := .luma x y z) rfl hroom hp

/-- Settles O22: the LUMA case of the decoder, of the common frame, and of the two checks of the fetch; red and blue are one
channel sum each, of the green delta and their own. -/
theorem lumaUnit : Obligations.LumaUnit := by
  intro s x y z
  refine ⟨fun rest => ?decodes, fun dg drdg dbdg hroom => ⟨deltaPixel (dg + drdg) dg (dg + dbdg) s.prev,
    ?completes, ?red, ?green, ?blue, rfl⟩,
    fun hp hh hlt hb hshort => ?truncated, fun hp hh hend => ?ends⟩
  case decodes => exact decode_luma_bytes x y z rest
  case completes => exact exec_onePixel (i := .luma dg drdg dbdg) rfl hroom
  case red =>
    rw [Int.add_assoc]
    exact chAdd_toNat s.prev.r (dg + drdg)
  case green => exact chAdd_toNat s.prev.g dg
  case blue =>
    rw [Int.add_assoc]
    exact chAdd_toNat s.prev.b (dg + dbdg)
  case truncated => exact step_truncated_of_placed (luma_opcode_byte x).1 hp hh hlt hb hshort
  case ends => exact endOfInputRaisesMalformed s hp hh hend

end Sys2Proof.Proofs
end

section
/-! SUPPORT. The opcode byte of a RUN, and the whole effect of a unit that emits PREV itself. -/

namespace Sys2Proof.Proofs

open Sys2Proof.Machine Sys2Proof.Claims

/-- The opcode byte `11nnnnnn` of a RUN, its length added to the byte before the first (30_encoding.md R77). -/
theorem run_opcode_byte {n : Nat} (hlow : 1 ≤ n) (hhigh : n ≤ 62) :
    classify (BitVec.ofNat 8 (191 + n)) = .run ∧ field 5 0 (BitVec.ofNat 8 (191 + n)) + 1 = n := by
  have hbytes : ∀ m < 63, 1 ≤ m →
      classify (BitVec.ofNat 8 (191 + m)) = .run ∧ field 5 0 (BitVec.ofNat 8 (191 + m)) + 1 = m := by decide
  exact hbytes n (by omega) hlow

/-- A RUN byte is RUN of its field plus one, whatever follows it (30_encoding.md R77, R81). -/
theorem decode_run_byte {n : Nat} (hlow : 1 ≤ n) (hhigh : n ≤ 62) (rest : List Byte) :
    decode (BitVec.ofNat 8 (191 + n) :: rest) = .ok (.run n, rest) := by
  obtain ⟨hkind, hfield⟩ := run_opcode_byte hlow hhigh
  rw [decode_run hkind, hfield]

/-- Emitting PREV, however often, leaves PREV as it was; the rest is the common frame's whole effect (41_stream_cycle.md R128
to R131). -/
theorem afterUnit_of_prev (k : Kind) (n : Nat) (s : State) :
    afterUnit k s.prev n s = { s with
      cache := s.cache.set (pixelHash s.prev).val s.prev (pixelHash s.prev).isLt
      outMem := (afterUnit k s.prev n s).outMem
      opix := s.opix + n
      iptr := s.iptr + unitLen k
      phase := if s.opix + n = s.w.toNat * s.h.toNat then .done else s.phase } := by
  have hprev : (afterUnit k s.prev n s).prev = s.prev := by rw [afterUnit_prev, ite_self]
  calc afterUnit k s.prev n s
      = { afterUnit k s.prev n s with prev := (afterUnit k s.prev n s).prev } := rfl
    _ = { afterUnit k s.prev n s with prev := s.prev } := by rw [hprev]

end Sys2Proof.Proofs
end

section
/-! PROOFS. The statement of 45_run.md. -/

namespace Sys2Proof.Proofs

open Sys2Proof.Machine Sys2Proof.Claims

/-- Settles O23: the RUN case of the decoder and of the common frame, whose emits write OUT pixel after pixel, and its fetch, which
can only miss the opcode byte. -/
theorem runUnit : Obligations.RunUnit := by
  intro n s hlow hhigh
  have hlen : unitLen (classify (BitVec.ofNat 8 (191 + n))) = 1 := by rw [(run_opcode_byte hlow hhigh).1, unitLen]
  refine ⟨fun rest => ?decodes, fun hroom => ⟨afterUnit .run s.prev n s, ?completes, ?effect,
    fun k j hc hk hj => ?inside, fun a ha => ?outside⟩,
    fun hover => ?overruns, fun hp hh hlt hb => ?executes, fun hp hh hend => ?ends⟩
  case decodes => exact decode_run_byte hlow hhigh rest
  case completes => exact exec_of_fits (i := .run n) hroom
  case effect => exact afterUnit_of_prev .run n s
  case inside => exact read_afterEmits hc s.prev hk hj
  case outside => exact read_outAfter_outside (pixel_bytes_le s.prev _) s.outMem ha
  case overruns => exact overrunRaisesMalformed (.run n) s hover
  case executes => exact step_exec_of_placed hlen (decode_run_byte hlow hhigh []) hp hh hlt hb
  case ends => exact endOfInputRaisesMalformed s hp hh hend

end Sys2Proof.Proofs
end

section
/-! SUPPORT. What an entry into ERROR can be: which errors the header step and the opcode step raise, and for what cause. -/

namespace Sys2Proof.Proofs

open Sys2Proof.Machine Sys2Proof.Claims

/-- The errors of the header step, the two that no other step raises with the field that is wrong (60_exceptions.md R200 to
R202). -/
inductive HeaderError (s : State) : ErrKind → Nat → Prop
  /-- The input ends before a field. -/
  | short {off : Nat} : HeaderError s .truncatedInput off
  | wrongMagic (h : ¬ placed s 0 magic) : HeaderError s .invalidMagic 0
  /-- A dimension, the size of the result or the colorspace is out of range. -/
  | range {off : Nat} : HeaderError s .malformedStream off
  | wrongChannels {c : Byte} (h : Memory.read s.inMem 12 = some c) (h3 : c ≠ 3) (h4 : c ≠ 4) :
    HeaderError s .unsupportedChannelCount 12

/-- The two errors of the opcode step (60_exceptions.md R203, R204). -/
inductive StreamError : ErrKind → Prop
  | short : StreamError .truncatedInput
  | malformed : StreamError .malformedStream

theorem HeaderError.kind_ne_noError {s : State} {k : ErrKind} {off : Nat} (h : HeaderError s k off) : k ≠ .noError := by
  cases h <;> decide

theorem StreamError.kind_ne_noError {k : ErrKind} (h : StreamError k) : k ≠ .noError := by
  cases h <;> decide

/-- An outcome that ends in ERROR is an error entry from `s`, of a kind and an offset with the cause `P`. -/
def RaisesOnly (P : ErrKind → Nat → Prop) (s : State) (o : Host.Outcome State Fault Refusal) : Prop :=
  ∀ t, o = .next t → t.phase = .error → ∃ k off, P k off ∧ t = raise k off s

section
variable {P : ErrKind → Nat → Prop} {s : State}

theorem RaisesOnly.check {bad : Prop} [Decidable bad] {k : ErrKind} {off : Nat} {rest : Host.Outcome State Fault Refusal}
    (hbad : bad → P k off) (hrest : ¬bad → RaisesOnly P s rest) :
    RaisesOnly P s (if bad then .next (raise k off s) else rest) := by
  intro t h ht
  rcases check_cases h with ⟨hb, e⟩ | ⟨hb, h⟩
  · exact ⟨k, off, hbad hb, e⟩
  · exact hrest hb t h ht

theorem RaisesOnly.andThen {α : Type} {o : Host.Outcome α Fault Refusal} {f : α → Host.Outcome State Fault Refusal}
    (h : ∀ x, o = .next x → RaisesOnly P s (f x)) : RaisesOnly P s (andThen o f) := by
  intro t hnext ht
  obtain ⟨x, hx, hf⟩ := andThen_eq_next.mp hnext
  exact h x hx t hf ht

theorem RaisesOnly.error {k : ErrKind} {off : Nat} (h : P k off) : RaisesOnly P s (.next (raise k off s)) := by
  rintro _ ⟨⟩ -
  exact ⟨k, off, h, rfl⟩

/-- A next state outside ERROR is no error entry. -/
theorem RaisesOnly.next {u : State} (h : u.phase ≠ .error) : RaisesOnly P s (.next u) := by
  rintro _ ⟨⟩ ht
  exact absurd ht h

end

/-- Bytes that stand in IN below L are what MemRead answers (20_memory.md R51). -/
theorem memRead_of_placed {s : State} {a : Nat} {bs : List Byte} (hl : a + bs.length ≤ s.l) (h : placed s a bs) :
    memRead a bs.length s = .next bs :=
  memRead_eq_next.mpr ⟨hl, rfl, h⟩

/-- A tag that is read and is not the magic: the magic does not stand at the start of IN. -/
theorem not_placed_magic {s : State} {tag : List Byte} (hread : memRead 0 4 s = .next tag) (hne : tag ≠ magic) :
    ¬ placed s 0 magic := by
  intro hplaced
  obtain ⟨hl, -, -⟩ := memRead_eq_next.mp hread
  have hmagic : memRead 0 4 s = .next magic := memRead_of_placed hl hplaced
  exact hne (Host.Outcome.next.inj (hread.symm.trans hmagic))

/-- Check by check, in the order of 40_header.md R100. -/
theorem headerStep_raisesOnly (s : State) : RaisesOnly (HeaderError s) s (headerStep s) := by
  unfold headerStep
  refine .check (fun _ => .short) fun _ => .andThen fun tag htag => ?_
  refine .check (fun hne => .wrongMagic (not_placed_magic htag hne)) fun _ => ?_
  refine .check (fun _ => .short) fun _ => .andThen fun w _ => .check (fun _ => .range) fun _ => ?_
  refine .check (fun _ => .short) fun _ => .andThen fun h _ => .check (fun _ => .range) fun _ => ?_
  refine .check (fun _ => .short) fun _ => .andThen fun c hc => ?_
  obtain ⟨-, hread⟩ := inByte_eq_next.mp hc
  refine .check (fun hne => .wrongChannels hread hne.1 hne.2) fun _ => .check (fun _ => .range) fun _ => ?_
  refine .check (fun _ => .short) fun _ => .andThen fun cs _ => .check (fun _ => .range) fun _ => ?_
  exact .check (fun _ => .short) fun _ => .next (by simp)

/-- A unit in PHASE STREAM raises the overrun of 41_stream_cycle.md R126 or ends in STREAM or DONE. -/
theorem exec_raisesOnly {s : State} (hp : s.phase = .stream) (i : Instr) :
    RaisesOnly (fun k _ => StreamError k) s (exec i s) := by
  rw [exec_eq, finishUnit_eq]
  refine .check (fun _ => .malformed) fun _ => .next ?_
  rw [afterUnit_phase, hp]
  split <;> decide

theorem streamStep_raisesOnly {s : State} (hp : s.phase = .stream) :
    RaisesOnly (fun k _ => StreamError k) s (streamStep s) := by
  refine .andThen fun x hx => ?_
  rcases fetch_cases hx with ⟨-, rfl⟩ | ⟨b, -, -, ⟨-, rfl⟩ | ⟨i, ops, -, -, -, -, -, -, rfl⟩⟩
  · exact .error .malformed
  · exact .error .short
  · exact exec_raisesOnly hp i

/-- No host command enters ERROR. -/
theorem hostCommand_phase_ne_error {k : HostCommand} {s t : State} (h : hostCommand k s = .next t)
    (hs : s.phase ≠ .error) : t.phase ≠ .error := by
  rcases hostCommand_cases h with ⟨off, bs, -, -, -, rfl⟩ | ⟨len, -, -, -, rfl⟩ | ⟨-, rfl⟩ | ⟨-, rfl⟩
  · exact hs
  all_goals simp

/-- ALL that a step into ERROR can be: the error entry of the header step, or that of the opcode step. -/
theorem step_enters_error {s t : State} (h : step s = .next t) (hs : s.phase ≠ .error) (ht : t.phase = .error) :
    ∃ k off, t = raise k off s.dropMove ∧
      ((s.phase = .header ∧ HeaderError s.dropMove k off) ∨ (s.phase = .stream ∧ StreamError k)) := by
  rcases step_cases h with ⟨-, hblock⟩ | ⟨k, rest, -, hcmd⟩
  · rcases blockStep_cases hblock with ⟨-, rfl⟩ | ⟨hp, hheader⟩ | ⟨hp, hstream⟩
    · exact absurd ht hs
    · obtain ⟨k, off, hk, e⟩ := headerStep_raisesOnly s.dropMove t hheader ht
      exact ⟨k, off, e, .inl ⟨hp, hk⟩⟩
    · obtain ⟨k, off, hk, e⟩ := streamStep_raisesOnly hp t hstream ht
      exact ⟨k, off, e, .inr ⟨hp, hk⟩⟩
  · exact absurd ht (hostCommand_phase_ne_error hcmd hs)

theorem dropMove_of_no_move {s : State} (h : s.host = []) : s.dropMove = s := by
  rw [State.dropMove, h, List.tail_nil, ← h]

theorem observe_error {s : State} (hp : s.phase = .error) (n : Nat) : observe n s = some (.err s.errKind s.errOff) := by
  rw [observe, hp]

/-! ### The step in ERROR -/

/-- In ERROR the block takes no step (60_exceptions.md R207). -/
theorem step_error {s : State} (hp : s.phase = .error) (hh : s.host = []) : step s = .next s := by
  rw [step_of_no_move hh, blockStep, hp]

/-- From ERROR a step keeps the phase and the record, or is one of the three commands that leave it. -/
theorem step_error_cases {s t : State} (hp : s.phase = .error) (h : step s = .next t) :
    (t.phase = .error ∧ t.errKind = s.errKind ∧ t.errOff = s.errOff)
      ∨ (t.phase ≠ .error ∧
          ∃ k rest, s.host = .command k :: rest ∧ (k = .abort ∨ k = .reset ∨ ∃ len, k = .start len)) := by
  rcases step_cases h with ⟨-, hblock⟩ | ⟨k, rest, hh, hcmd⟩
  · rcases blockStep_cases hblock with ⟨-, rfl⟩ | ⟨hheader, -⟩ | ⟨hstream, -⟩
    · exact .inl ⟨hp, rfl, rfl⟩
    · cases hp.symm.trans hheader
    · cases hp.symm.trans hstream
  · rcases hostCommand_cases hcmd with ⟨off, bs, -, -, -, rfl⟩ | ⟨len, hk, -, -, rfl⟩ | ⟨hk, rfl⟩ | ⟨hk, rfl⟩
    · exact .inl ⟨hp, rfl, rfl⟩
    · exact .inr ⟨by simp, k, rest, hh, .inr (.inr ⟨len, hk⟩)⟩
    · exact .inr ⟨by simp, k, rest, hh, .inl hk⟩
    · exact .inr ⟨by simp, k, rest, hh, .inr (.inl hk)⟩

end Sys2Proof.Proofs
end

section
/-! PROOFS. The statements of 60_exceptions.md. -/

namespace Sys2Proof.Proofs

open Sys2Proof.Machine Sys2Proof.Claims

/-- Settles O9: of the two steps that enter ERROR, the opcode step has neither kind, and the header step one cause for each. -/
theorem onlyTheHeaderRaisesMagicAndChannelErrors : Obligations.OnlyTheHeaderRaisesMagicAndChannelErrors := by
  intro s t h hs ht
  obtain ⟨k, off, rfl, ⟨hp, hk⟩ | ⟨-, hk⟩⟩ := step_enters_error h hs ht
  · cases hk with
    | wrongMagic hmagic => exact ⟨fun _ => ⟨hp, rfl, hmagic⟩, nofun⟩
    | wrongChannels hread h3 h4 => exact ⟨nofun, fun _ => ⟨hp, rfl, _, hread, h3, h4⟩⟩
    | short | range => exact ⟨nofun, nofun⟩
  · cases hk <;> exact ⟨nofun, nofun⟩

/-- Settles O16: a step into ERROR is an error entry, which writes the three registers and no other. -/
theorem errorEntryWritesThreeRegisters : Obligations.ErrorEntryWritesThreeRegisters := by
  intro s t hh hs h ht
  obtain ⟨k, off, e, hcause⟩ := step_enters_error h hs ht
  rw [dropMove_of_no_move hh] at e
  subst e
  refine ⟨rfl, ?_, observe_error ht⟩
  obtain ⟨-, hk⟩ | ⟨-, hk⟩ := hcause
  · exact hk.kind_ne_noError
  · exact hk.kind_ne_noError

/-- Settles O43: the block takes no step in ERROR, and of the host's commands placing input alone stays there. -/
theorem errorAbsorbs : Obligations.ErrorAbsorbs := by
  refine fun s hp => ⟨step_error hp, fun t h => ?_⟩
  rcases step_error_cases hp h with ⟨hstay, hrecord⟩ | ⟨hleft, hcommand⟩
  · exact ⟨absurd hstay, fun _ => hrecord⟩
  · exact ⟨fun _ => hcommand, fun hstay => absurd hstay hleft⟩

end Sys2Proof.Proofs
end

section
/-! SUPPORT. A host command taken off the schedule, and the two commands that initialise the registers, as one step. -/

namespace Sys2Proof.Proofs

open Sys2Proof.Machine Sys2Proof.Claims

/-- With a command next, the step is that command, whatever the phase (60_exceptions.md R214). -/
theorem step_of_command {s : State} {k : HostCommand} {rest : List HostMove} (hh : s.host = .command k :: rest) :
    step s = hostCommand k { s with host := rest } := by
  rw [step, hh]

/-- START over an input that fits IN and was placed is accepted (70_reset_and_hazards.md R231, R233). -/
theorem hostCommand_start {s : State} {len : Nat} (hfit : len ≤ s.params.pInMax) (hplaced : Memory.resident s.inMem len) :
    hostCommand (.start len) s = .next (startDecode len s) := by
  rw [hostCommand, if_neg (Nat.not_lt.mpr hfit), if_pos hplaced]

theorem hostCommand_reset (s : State) : hostCommand .reset s = .next (resetBlock s) := rfl

/-- The power-on state is what RESET leaves of any state, but for the memories, the parameters and the host's moves. -/
theorem reset_eq_resetBlock (s : State) :
    State.reset = { resetBlock s with inMem := [], outMem := [], params := State.reset.params, host := [] } := rfl

end Sys2Proof.Proofs
end

section
/-! PROOFS. The statements of 70_reset_and_hazards.md. -/

namespace Sys2Proof.Proofs

open Sys2Proof.Machine Sys2Proof.Claims

/-- Settles O52: the step is START's initialisation, which writes every register and neither IN nor the parameters. -/
theorem startInitialisesTheDecode : Obligations.StartInitialisesTheDecode := by
  intro s len rest hh hfit hplaced
  have hstep : step s = .next (startDecode len { s with host := rest }) :=
    (step_of_command hh).trans (hostCommand_start hfit hplaced)
  exact ⟨_, hstep, rfl⟩

/-- Settles O54: the step is RESET's initialisation, which leaves the registers of the power-on state. -/
theorem resetCommandSetsEveryRegister : Obligations.ResetCommandSetsEveryRegister := by
  intro s rest hh
  have hstep : step s = .next (resetBlock { s with host := rest }) :=
    (step_of_command hh).trans (hostCommand_reset _)
  exact ⟨_, hstep, rfl, reset_eq_resetBlock _⟩

end Sys2Proof.Proofs
end

section
/-! SUPPORT. The decoder inverted: every way a byte list starts with a whole unit; the byte ranges of the kinds; and the fields of a
byte put together again. -/

namespace Sys2Proof.Proofs

open Sys2Proof.Machine Sys2Proof.Claims

/-- The unit of the opcode byte `b`, read from the bytes after it, with the bytes it leaves (30_encoding.md R72 to R78). -/
inductive DecodesTo (b : Byte) : List Byte → Instr → List Byte → Prop
  | rgb (hk : classify b = .rgb) (r g bl : Byte) (more : List Byte) :
    DecodesTo b (r :: g :: bl :: more) (.rgb r g bl) more
  | rgba (hk : classify b = .rgba) (r g bl a : Byte) (more : List Byte) :
    DecodesTo b (r :: g :: bl :: a :: more) (.rgba r g bl a) more
  | index (hk : classify b = .index) (more : List Byte) :
    DecodesTo b more (.index (Fin.ofNat 64 (field 5 0 b))) more
  | diff (hk : classify b = .diff) (more : List Byte) :
    DecodesTo b more (.diff (unbias 2 (field 5 4 b)) (unbias 2 (field 3 2 b)) (unbias 2 (field 1 0 b))) more
  | luma (hk : classify b = .luma) (b1 : Byte) (more : List Byte) :
    DecodesTo b (b1 :: more)
      (.luma (unbias 32 (field 5 0 b)) (unbias 8 (field 7 4 b1)) (unbias 8 (field 3 0 b1))) more
  | run (hk : classify b = .run) (more : List Byte) : DecodesTo b more (.run (field 5 0 b + 1)) more

theorem decode_short {b : Byte} {rest : List Byte} (h : rest.length + 1 < unitLen (classify b)) :
    decode (b :: rest) = .error (.missingExtraBytes (classify b)) := by
  cases hk : classify b with
  | rgb =>
    match rest, hk ▸ h with
    | [], _ | [_], _ | [_, _], _ => simp [decode, hk]
  | rgba =>
    match rest, hk ▸ h with
    | [], _ | [_], _ | [_, _], _ | [_, _, _], _ => simp [decode, hk]
  | luma =>
    match rest, hk ▸ h with
    | [], _ => simp [decode, hk]
  | index | diff | run =>
    rw [hk, unitLen] at h
    omega

/-- A list that holds the unit of `b` whole decodes in one of these six ways. -/
theorem decodesTo_of_full {b : Byte} {rest : List Byte} (h : unitLen (classify b) ≤ rest.length + 1) :
    ∃ i more, decode (b :: rest) = .ok (i, more) ∧ DecodesTo b rest i more := by
  cases hk : classify b with
  | rgb =>
    match rest, hk ▸ h with
    | r :: g :: bl :: more, _ => exact ⟨_, _, decode_rgb hk r g bl more, .rgb hk r g bl more⟩
  | rgba =>
    match rest, hk ▸ h with
    | r :: g :: bl :: a :: more, _ => exact ⟨_, _, decode_rgba hk r g bl a more, .rgba hk r g bl a more⟩
  | luma =>
    match rest, hk ▸ h with
    | b1 :: more, _ => exact ⟨_, _, decode_luma hk b1 more, .luma hk b1 more⟩
  | index => exact ⟨_, _, decode_index hk rest, .index hk rest⟩
  | diff => exact ⟨_, _, decode_diff hk rest, .diff hk rest⟩
  | run => exact ⟨_, _, decode_run hk rest, .run hk rest⟩

theorem unitLen_le_of_decode {b : Byte} {rest more : List Byte} {i : Instr} (h : decode (b :: rest) = .ok (i, more)) :
    unitLen (classify b) ≤ rest.length + 1 := by
  by_contra hshort
  rw [decode_short (by omega)] at h
  cases h

theorem decodesTo_of_decode {b : Byte} {rest more : List Byte} {i : Instr} (h : decode (b :: rest) = .ok (i, more)) :
    DecodesTo b rest i more := by
  obtain ⟨j, left, hd, hto⟩ := decodesTo_of_full (unitLen_le_of_decode h)
  cases hd.symm.trans h
  exact hto

/-- The first and the last opcode byte of a kind (30_encoding.md R80). -/
def byteRange : Kind → Nat × Nat
  | .index => (0x00, 0x3F)
  | .diff => (0x40, 0x7F)
  | .luma => (0x80, 0xBF)
  | .run => (0xC0, 0xFD)
  | .rgb => (0xFE, 0xFE)
  | .rgba => (0xFF, 0xFF)

theorem classify_byteRange (b : Byte) :
    (byteRange (classify b)).1 ≤ b.toNat ∧ b.toNat ≤ (byteRange (classify b)).2 := by
  revert b; decide

/-! ### The bytes of a decoded unit, by evaluation over every byte -/

theorem rgb_byte_of_kind (b : Byte) (h : classify b = .rgb) : b = 0xFE := by
  revert b; decide

theorem rgba_byte_of_kind (b : Byte) (h : classify b = .rgba) : b = 0xFF := by
  revert b; decide

theorem index_byte_of_field (b : Byte) (h : classify b = .index) :
    BitVec.ofNat 8 (Fin.ofNat 64 (field 5 0 b)).val = b := by
  revert b; decide

theorem diff_byte_of_fields (b : Byte) (h : classify b = .diff) :
    encode (.diff (unbias 2 (field 5 4 b)) (unbias 2 (field 3 2 b)) (unbias 2 (field 1 0 b))) = [b] := by
  revert b; decide

theorem luma_byte0_of_field (b : Byte) (h : classify b = .luma) : 0x80 ||| rebias 32 (unbias 32 (field 5 0 b)) = b := by
  revert b; decide

theorem luma_byte1_of_fields (b : Byte) :
    (rebias 8 (unbias 8 (field 7 4 b)) <<< 4) ||| rebias 8 (unbias 8 (field 3 0 b)) = b := by
  revert b; decide

theorem run_byte_of_field (b : Byte) (h : classify b = .run) : encode (.run (field 5 0 b + 1)) = [b] := by
  revert b; decide

theorem DecodesTo.eq_encode {b : Byte} {rest more : List Byte} {i : Instr} (h : DecodesTo b rest i more) :
    b :: rest = encode i ++ more := by
  cases h with
  | rgb hk r g bl => rw [rgb_byte_of_kind b hk]; rfl
  | rgba hk r g bl a => rw [rgba_byte_of_kind b hk]; rfl
  | index hk => rw [encode, index_byte_of_field b hk]; rfl
  | diff hk => rw [diff_byte_of_fields b hk]; rfl
  | luma hk b1 => rw [encode, luma_byte0_of_field b hk, luma_byte1_of_fields b1]; rfl
  | run hk => rw [run_byte_of_field b hk]; rfl

end Sys2Proof.Proofs
end

section
/-! PROOFS. The statements of 30_encoding.md. -/

namespace Sys2Proof.Proofs

open Sys2Proof.Machine Sys2Proof.Claims

/-- Settles O1: the encoder's bytes as their raw fields, and the decoder's case for the kind they classify as. -/
theorem decodeInvertsEncode : Obligations.DecodeInvertsEncode := by
  intro i rest hwf
  cases i with
  | rgb r g b => exact decode_rgb (by decide) r g b rest
  | rgba r g b a => exact decode_rgba (by decide) r g b a rest
  | index idx => exact decode_index_byte idx rest
  | diff dr dg db =>
    obtain ⟨x, y, z, hbytes, hdr, hdg, hdb⟩ := encode_diff_raw hwf
    obtain ⟨hk, hx, hy, hz⟩ := diff_byte x y z
    rw [hbytes, List.singleton_append, decode_diff hk, hx, hy, hz, hdr, hdg, hdb]
  | luma dg drdg dbdg =>
    obtain ⟨x, y, z, hbytes, hdg, hdr, hdb⟩ := encode_luma_raw hwf
    obtain ⟨hk, hx⟩ := luma_byte0 x
    obtain ⟨hy, hz⟩ := luma_byte1 y z
    rw [hbytes, List.cons_append, List.singleton_append, decode_luma hk, hx, hy, hz, hdg, hdr, hdb]
  | run n =>
    obtain ⟨x, hbytes, hn⟩ := encode_run_raw hwf
    obtain ⟨hk, hx⟩ := run_byte x
    rw [hbytes, List.singleton_append, decode_run hk, hx, hn]

/-- Settles O2: the decoder's six answers, each well-formed and encoded as the bytes it was read from. -/
theorem encodeInvertsDecode : Obligations.EncodeInvertsDecode := by
  intro bs i rest h
  cases bs with
  | nil => cases h
  | cons b bs =>
    obtain ⟨j, hd, -, hwf⟩ := decode_full (unitLen_le_of_decode h)
    cases hd.symm.trans h
    exact ⟨hwf, (decodesTo_of_decode h).eq_encode⟩

/-- Settles O3: a whole unit decodes, and one cut short is refused. -/
theorem decodeRefusesOnlyMissingBytes : Obligations.DecodeRefusesOnlyMissingBytes := by
  refine ⟨decode_nil, fun b rest => ⟨fun ⟨r, hr⟩ => ?_, fun hshort => ⟨_, decode_short hshort⟩⟩⟩
  by_contra hlong
  obtain ⟨i, hd, -⟩ := decode_full (b := b) (rest := rest) (by omega)
  cases hd.symm.trans hr

/-- Settles O4: in each of the decoder's six answers the kind's byte range leaves one clause, which the answer meets. -/
theorem opcodeByteDecidesKindAndLength : Obligations.OpcodeByteDecidesKindAndLength := by
  intro b rest i more h
  have hrange := classify_byteRange b
  cases decodesTo_of_decode h with
  | rgb hk =>
    rw [hk, byteRange] at hrange
    refine ⟨?_, ?_, ?_, ?_, fun _ => ⟨⟨_, _, _, rfl⟩, rfl⟩, ?_⟩ <;> (intros; omega)
  | rgba hk =>
    rw [hk, byteRange] at hrange
    refine ⟨?_, ?_, ?_, ?_, ?_, fun _ => ⟨⟨_, _, _, _, rfl⟩, rfl⟩⟩ <;> (intros; omega)
  | index hk =>
    rw [hk, byteRange] at hrange
    refine ⟨fun _ => ⟨⟨_, rfl⟩, rfl⟩, ?_, ?_, ?_, ?_, ?_⟩ <;> (intros; omega)
  | diff hk =>
    rw [hk, byteRange] at hrange
    refine ⟨?_, fun _ _ => ⟨⟨_, _, _, rfl⟩, rfl⟩, ?_, ?_, ?_, ?_⟩ <;> (intros; omega)
  | luma hk =>
    rw [hk, byteRange] at hrange
    refine ⟨?_, ?_, fun _ _ => ⟨⟨_, _, _, rfl⟩, rfl⟩, ?_, ?_, ?_⟩ <;> (intros; omega)
  | run hk =>
    rw [hk, byteRange] at hrange
    refine ⟨?_, ?_, ?_, fun _ _ => ⟨⟨_, rfl⟩, rfl⟩, ?_, ?_⟩ <;> (intros; omega)

/-- Settles O5, by running the decoder on the seven words. -/
theorem specWordsDecode : Obligations.SpecWordsDecode := by
  unfold Obligations.SpecWordsDecode
  decide

end Sys2Proof.Proofs
end

section
/-! SUPPORT. The header step check by check: what each group of checks of 40_header.md R100 does with the field it reads. -/

namespace Sys2Proof.Proofs

open Sys2Proof.Machine Sys2Proof.Claims

theorem step_header {s : State} (hp : s.phase = .header) (hh : s.host = []) : step s = headerStep s := by
  rw [step_of_no_move hh, blockStep, hp]

/-! ### Bytes that stand in IN -/

theorem placed_append {s : State} {a : Nat} {xs ys : List Byte} :
    placed s a (xs ++ ys) ↔ placed s a xs ∧ placed s (a + xs.length) ys := by
  constructor
  · refine fun h => ⟨fun k hk => ?_, fun k hk => ?_⟩
    · rw [h k (by rw [List.length_append]; omega), List.getElem?_append_left hk]
    · rw [Nat.add_assoc, h (xs.length + k) (by rw [List.length_append]; omega),
        List.getElem?_append_right (by omega), Nat.add_sub_cancel_left]
  · rintro ⟨hx, hy⟩ k hk
    by_cases hkx : k < xs.length
    · rw [hx k hkx, List.getElem?_append_left hkx]
    · rw [List.length_append] at hk
      have hread := hy (k - xs.length) (by omega)
      rwa [show a + xs.length + (k - xs.length) = a + k by omega, ← List.getElem?_append_right (by omega)] at hread

theorem placed_header {s : State} {w h : Dim} {c cs : Byte} (hin : placed s 0 (serializeHeader w h c cs)) :
    placed s 0 magic ∧ placed s 4 (dimBytes w) ∧ placed s 8 (dimBytes h) ∧ placed s 12 [c] ∧ placed s 13 [cs] := by
  rw [serializeHeader, ← List.singleton_append, ← List.append_assoc] at hin
  simp only [placed_append] at hin
  obtain ⟨⟨⟨⟨htag, hw⟩, hh⟩, hc⟩, hcs⟩ := hin
  exact ⟨htag, hw, hh, hc, hcs⟩

theorem memRead_dimension {s : State} {a : Nat} {v : Dim} (hl : a + 4 ≤ s.l) (h : placed s a (dimBytes v)) :
    memRead a 4 s = .next (dimBytes v) :=
  memRead_of_placed (bs := dimBytes v) hl h

theorem inByte_of_placed {s : State} {a : Nat} {b : Byte} (hl : a < s.l) (h : placed s a [b]) : inByte a s = .next b :=
  inByte_eq_next.mpr ⟨hl, placed_singleton.mp h⟩

/-! ### The checks after each field

`checksFromX` is the header step from field X on, the fields before it being accepted. -/

def checksFromOpcode (w h : Dim) (c cs : Byte) (s : State) : Host.Outcome State Fault Refusal :=
  if s.l < 15 then .next (raise .truncatedInput 14 s) else .next (commitHeader w h c cs s)

def checksFromColorspace (w h : Dim) (c : Byte) (s : State) : Host.Outcome State Fault Refusal :=
  if s.l < 14 then .next (raise .truncatedInput 13 s) else
  andThen (inByte 13 s) fun cs =>
  if cs.toNat > 1 then .next (raise .malformedStream 13 s) else checksFromOpcode w h c cs s

def checksFromChannels (w h : Dim) (s : State) : Host.Outcome State Fault Refusal :=
  if s.l < 13 then .next (raise .truncatedInput 12 s) else
  andThen (inByte 12 s) fun c =>
  if c ≠ 3 ∧ c ≠ 4 then .next (raise .unsupportedChannelCount 12 s) else
  if w.toNat * h.toNat * c.toNat > s.params.pOutCap then .next (raise .malformedStream 4 s) else
  checksFromColorspace w h c s

def checksFromHeight (w : Dim) (s : State) : Host.Outcome State Fault Refusal :=
  if s.l < 12 then .next (raise .truncatedInput 8 s) else
  andThen (memRead 8 4 s) fun hBytes =>
  if be32 hBytes = 0 then .next (raise .malformedStream 8 s) else checksFromChannels w (be32 hBytes) s

def checksFromWidth (s : State) : Host.Outcome State Fault Refusal :=
  if s.l < 8 then .next (raise .truncatedInput 4 s) else
  andThen (memRead 4 4 s) fun wBytes =>
  if be32 wBytes = 0 then .next (raise .malformedStream 4 s) else checksFromHeight (be32 wBytes) s

/-- The header step is the magic check and then the others. -/
theorem headerStep_eq (s : State) : headerStep s =
    if s.l < 4 then .next (raise .truncatedInput 0 s) else
    andThen (memRead 0 4 s) fun tag =>
    if tag ≠ magic then .next (raise .invalidMagic 0 s) else checksFromWidth s := rfl

section
variable {s : State} {w h : Dim} {c cs : Byte}

theorem headerStep_of_tag {tag : List Byte} (hl : 4 ≤ s.l) (hlen : tag.length = 4) (htag : placed s 0 tag) :
    headerStep s = if tag ≠ magic then .next (raise .invalidMagic 0 s) else checksFromWidth s := by
  have hread : memRead 0 4 s = .next tag := hlen ▸ memRead_of_placed (by omega) htag
  rw [headerStep_eq, if_neg (by omega), hread, andThen_next]

theorem checksFromWidth_eq (hl : 8 ≤ s.l) (hw : placed s 4 (dimBytes w)) :
    checksFromWidth s = if w = 0 then .next (raise .malformedStream 4 s) else checksFromHeight w s := by
  rw [checksFromWidth, if_neg (by omega), memRead_dimension hl hw, andThen_next, be32_dimBytes]

theorem checksFromHeight_eq (hl : 12 ≤ s.l) (hh : placed s 8 (dimBytes h)) :
    checksFromHeight w s = if h = 0 then .next (raise .malformedStream 8 s) else checksFromChannels w h s := by
  rw [checksFromHeight, if_neg (by omega), memRead_dimension hl hh, andThen_next, be32_dimBytes]

theorem checksFromChannels_eq (hl : 13 ≤ s.l) (hc : placed s 12 [c]) :
    checksFromChannels w h s =
      if c ≠ 3 ∧ c ≠ 4 then .next (raise .unsupportedChannelCount 12 s) else
      if w.toNat * h.toNat * c.toNat > s.params.pOutCap then .next (raise .malformedStream 4 s) else
      checksFromColorspace w h c s := by
  rw [checksFromChannels, if_neg (by omega), inByte_of_placed hl hc, andThen_next]

theorem checksFromColorspace_eq (hl : 14 ≤ s.l) (hcs : placed s 13 [cs]) :
    checksFromColorspace w h c s =
      if cs.toNat > 1 then .next (raise .malformedStream 13 s) else checksFromOpcode w h c cs s := by
  rw [checksFromColorspace, if_neg (by omega), inByte_of_placed hl hcs, andThen_next]

/-! ### The fields accepted so far -/

theorem channels_supported (hlegal : c = 3 ∨ c = 4) : ¬ (c ≠ 3 ∧ c ≠ 4) :=
  fun ⟨h3, h4⟩ => hlegal.elim h3 h4

theorem headerStep_past_magic (hl : 4 ≤ s.l) (htag : placed s 0 magic) : headerStep s = checksFromWidth s := by
  rw [headerStep_of_tag hl rfl htag, if_neg (not_not.mpr rfl)]

theorem headerStep_past_width (hl : 8 ≤ s.l) (htag : placed s 0 magic) (hw : placed s 4 (dimBytes w)) (hw0 : w ≠ 0) :
    headerStep s = checksFromHeight w s := by
  rw [headerStep_past_magic (by omega) htag, checksFromWidth_eq hl hw, if_neg hw0]

theorem headerStep_past_height (hl : 12 ≤ s.l) (htag : placed s 0 magic) (hw : placed s 4 (dimBytes w)) (hw0 : w ≠ 0)
    (hh : placed s 8 (dimBytes h)) (hh0 : h ≠ 0) : headerStep s = checksFromChannels w h s := by
  rw [headerStep_past_width (by omega) htag hw hw0, checksFromHeight_eq hl hh, if_neg hh0]

theorem checksFromChannels_legal (hl : 13 ≤ s.l) (hc : placed s 12 [c]) (hlegal : c = 3 ∨ c = 4)
    (hfits : w.toNat * h.toNat * c.toNat ≤ s.params.pOutCap) :
    checksFromChannels w h s = checksFromColorspace w h c s := by
  rw [checksFromChannels_eq hl hc, if_neg (channels_supported hlegal), if_neg (Nat.not_lt.mpr hfits)]

theorem checksFromColorspace_legal (hl : 14 ≤ s.l) (hcs : placed s 13 [cs]) (hlegal : cs = 0 ∨ cs = 1) :
    checksFromColorspace w h c s = checksFromOpcode w h c cs s := by
  have hsmall : ¬ cs.toNat > 1 := by rcases hlegal with rfl | rfl <;> decide
  rw [checksFromColorspace_eq hl hcs, if_neg hsmall]

end

end Sys2Proof.Proofs
end

section
/-! PROOFS. The statements of 40_header.md. -/

namespace Sys2Proof.Proofs

open Sys2Proof.Machine Sys2Proof.Claims

/-- Settles O6: every check passes and the step commits. -/
theorem headerRoundTrip : Obligations.HeaderRoundTrip := by
  intro s w h c cs hp hhost hw0 hh0 hc hcs hfits hl hin
  obtain ⟨htag, hw, hh, hcin, hcsin⟩ := placed_header hin
  rw [step_header hp hhost, headerStep_past_height (by omega) htag hw hw0 hh hh0,
    checksFromChannels_legal (by omega) hcin hc hfits, checksFromColorspace_legal (by omega) hcsin hcs,
    checksFromOpcode, if_neg (by omega), commitHeader]

/-- Settles O7: the checks before the missing field pass, and its own bounds check fails. -/
theorem shortHeaderRaisesTruncated : Obligations.ShortHeaderRaisesTruncated := by
  intro s w h c cs hp hhost
  rw [step_header hp hhost]
  refine ⟨fun hl => ?magic, fun htag => ⟨fun hlow hl => ?width, fun hw hw0 => ⟨fun hlow hl => ?height,
    fun hh hh0 => ⟨fun hl => ?channels, fun hcin hc hfits => ⟨fun hl => ?colorspace, fun hcsin hcs hl => ?opcode⟩⟩⟩⟩⟩
  case magic => rw [headerStep_eq, if_pos hl, failedWith_eq_raise]
  case width => rw [headerStep_past_magic hlow htag, checksFromWidth, if_pos hl, failedWith_eq_raise]
  case height => rw [headerStep_past_width hlow htag hw hw0, checksFromHeight, if_pos hl, failedWith_eq_raise]
  case channels =>
    rw [headerStep_past_height hl.ge htag hw hw0 hh hh0, checksFromChannels, if_pos (by omega), failedWith_eq_raise]
  case colorspace =>
    rw [headerStep_past_height (by omega) htag hw hw0 hh hh0, checksFromChannels_legal hl.ge hcin hc hfits,
      checksFromColorspace, if_pos (by omega), failedWith_eq_raise]
  case opcode =>
    rw [headerStep_past_height (by omega) htag hw hw0 hh hh0, checksFromChannels_legal (by omega) hcin hc hfits,
      checksFromColorspace_legal hl.ge hcsin hcs, checksFromOpcode, if_pos (by omega), failedWith_eq_raise]

/-- Settles O8: the checks before the wrong field pass, and its own value check fails. -/
theorem badHeaderFieldRaisesItsError : Obligations.BadHeaderFieldRaisesItsError := by
  intro s tag w h c cs hp hhost
  rw [step_header hp hhost]
  refine ⟨fun hl hlen hne htag => ?magic, fun htag => ⟨fun hl hzero => ?width, fun hw hw0 => ⟨fun hl hzero => ?height,
    fun hh hh0 hcin => ⟨fun hl h3 h4 => ?channels, fun hl hc hover => ?size, fun hl hc hfits hcsin hcs => ?colorspace⟩⟩⟩⟩
  case magic => rw [headerStep_of_tag hl hlen htag, if_pos hne, failedWith_eq_raise]
  case width =>
    rw [headerStep_past_magic (by omega) htag, checksFromWidth_eq (w := 0) hl hzero, if_pos rfl, failedWith_eq_raise]
  case height =>
    rw [headerStep_past_width (by omega) htag hw hw0, checksFromHeight_eq (h := 0) hl hzero, if_pos rfl,
      failedWith_eq_raise]
  case channels =>
    rw [headerStep_past_height (by omega) htag hw hw0 hh hh0, checksFromChannels_eq hl hcin, if_pos ⟨h3, h4⟩,
      failedWith_eq_raise]
  case size =>
    rw [headerStep_past_height (by omega) htag hw hw0 hh hh0, checksFromChannels_eq hl hcin,
      if_neg (channels_supported hc), if_pos hover, failedWith_eq_raise]
  case colorspace =>
    rw [headerStep_past_height (by omega) htag hw hw0 hh hh0, checksFromChannels_legal (by omega) hcin hc hfits,
      checksFromColorspace_eq hl hcsin, if_pos hcs, failedWith_eq_raise]

/-- Settles O10: the step is an error entry or the commit, and neither writes what the statement lists. -/
theorem headerStepLeavesTheDecoderAlone : Obligations.HeaderStepLeavesTheDecoderAlone := by
  intro s t hp hhost hstep
  rw [step_header hp hhost] at hstep
  rcases headerStep_cases hstep with ⟨k, off, -, -, rfl⟩ | ⟨w, h, c, cs, -, -, -, -, -, -, rfl⟩
  · exact ⟨rfl, rfl, rfl, rfl, rfl, rfl, rfl, .inr ⟨rfl, rfl, rfl, rfl, rfl, rfl⟩⟩
  · exact ⟨rfl, rfl, rfl, rfl, rfl, rfl, rfl, .inl ⟨rfl, rfl, rfl⟩⟩

end Sys2Proof.Proofs
end

section
/-! SUPPORT. The fetch of an encoded unit, a RUN's count in its opcode byte, and what the pixel of a unit depends on. -/

namespace Sys2Proof.Proofs

open Sys2Proof.Machine Sys2Proof.Claims

theorem step_of_letRun {s : State} {rest : List HostMove} (hh : s.host = .letRun :: rest) :
    step s = blockStep { s with host := rest } := by
  rw [step, hh]

theorem blockStep_stream {s : State} (hp : s.phase = .stream) : blockStep s = streamStep s := by
  rw [blockStep, hp]

/-- A well-formed unit is encoded as an opcode byte of its kind and as many extra bytes as the kind has (30_encoding.md R71, R79). -/
theorem encode_shape {i : Instr} (h : i.wf = true) :
    ∃ b ops, encode i = b :: ops ∧ classify b = i.kind ∧ ops.length + 1 = unitLen i.kind :=
  match i with
  | .rgb r g b => Laws.UnitShape.rgb r g b h
  | .rgba r g b a => Laws.UnitShape.rgba r g b a h
  | .index idx => Laws.UnitShape.index idx h
  | .diff dr dg db => Laws.UnitShape.diff dr dg db h
  | .luma dg drdg dbdg => Laws.UnitShape.luma dg drdg dbdg h
  | .run n => Laws.UnitShape.run n h

theorem encode_length {i : Instr} (h : i.wf = true) : (encode i).length = unitLen i.kind := by
  obtain ⟨b, ops, hbytes, -, hlen⟩ := encode_shape h
  rw [hbytes, List.length_cons, hlen]

/-- The bytes of a unit at IPTR, all before L, are fetched as that unit (41_stream_cycle.md R120 to R124). -/
theorem fetch_of_placed {i : Instr} {s : State} (hwf : i.wf = true) (hin : placed s s.iptr (encode i))
    (hl : s.iptr + (encode i).length ≤ s.l) : fetch s = .next (.unit i) := by
  have hdecode : decode (encode i) = .ok (i, []) := by simpa using decodeInvertsEncode i [] hwf
  obtain ⟨b, ops, hbytes, hk, hlen⟩ := encode_shape hwf
  rw [hbytes] at hin hl hdecode
  rw [← List.singleton_append, placed_append] at hin
  obtain ⟨hb, hops⟩ := hin
  rw [List.length_cons] at hl
  exact fetch_unit (placed_singleton.mp hb) (by rw [hk]; omega) (by rw [hk]; omega) hops hdecode

theorem run_count_of_byte (b : Byte) (h : classify b = .run) : field 5 0 b + 1 = b.toNat - 191 := by
  revert b; decide

/-- A unit that emits more than one pixel is a RUN, whose count is its opcode byte less 191 (30_encoding.md R77, R78). -/
theorem run_of_emitCount {b : Byte} {ops more : List Byte} {i : Instr} (hd : decode (b :: ops) = .ok (i, more))
    (hmany : 1 < emitCount i) : classify b = .run ∧ emitCount i = b.toNat - 191 := by
  cases decodesTo_of_decode hd with
  | run hk => exact ⟨hk, run_count_of_byte b hk⟩
  | rgb | rgba | index | diff | luma => exact absurd hmany (by simp [emitCount])

/-- Only the literals and LUMA have extra bytes to miss (30_encoding.md R79). -/
theorem kind_of_extra_bytes {k : Kind} (h : 1 < unitLen k) : k = .rgb ∨ k = .rgba ∨ k = .luma := by
  revert h; cases k <;> decide

/-- No unit faults or is refused, whatever the state. -/
theorem exec_answers (i : Instr) (s : State) : ∃ t, exec i s = .next t := by
  by_cases hroom : fits i s
  · exact ⟨_, exec_of_fits hroom⟩
  · exact ⟨_, overrunRaisesMalformed i s (Nat.not_le.mp hroom)⟩

theorem streamStep_answers {s : State} (hr : Memory.resident s.inMem s.l) (hi : s.iptr ≤ s.l) :
    ∃ t, streamStep s = .next t := by
  obtain ⟨x, hx⟩ := fetch_resident hr hi
  cases x with
  | unit i => rw [streamStep_of_unit hx]; exact exec_answers i s
  | error k off => exact ⟨_, streamStep_of_error hx⟩

/-- A unit in STREAM with room for its pixels goes on in STREAM or ends in DONE. -/
theorem afterUnit_phase_cases {s : State} (hp : s.phase = .stream) (k : Kind) (p : Pixel) (n : Nat) :
    (afterUnit k p n s).phase = .stream ∨ (afterUnit k p n s).phase = .done := by
  rw [afterUnit_phase, hp]
  split
  · exact .inr rfl
  · exact .inl rfl

/-- Each entry of CACHE after the one write of a unit (41_stream_cycle.md R128). -/
theorem cacheUpdate_getElem (p : Pixel) (s : State) (idx : Fin 64) :
    (cacheUpdate p s).cache[idx.val] = if idx = pixelHash p then p else s.cache[idx.val] :=
  cacheRead_cacheUpdate p idx s

/-- Caching a pixel that already sits at its hash changes nothing (41_stream_cycle.md R136 (b)). -/
theorem cacheUpdate_of_cached {p : Pixel} {s : State} (h : cacheRead (pixelHash p) s = p) :
    (cacheUpdate p s).cache = s.cache := by
  refine Vector.ext fun n hn => ?_
  rw [cacheUpdate_getElem p s ⟨n, hn⟩]
  by_cases hidx : (⟨n, hn⟩ : Fin 64) = pixelHash p
  · rw [if_pos hidx]
    rw [← hidx] at h
    exact h.symm
  · rw [if_neg hidx]

/-- The pixel and the count a unit returns do not depend on C (10_state.md R24). -/
theorem execResult_with_channels (i : Instr) (c : Byte) (s : State) : execResult i { s with c := c } = execResult i s := by
  cases i <;> rfl

/-- A unit whose own alpha, if it brings one, is 255 returns a pixel with alpha 255 when PREV has it (41_stream_cycle.md R135). -/
theorem execResult_opaque {i : Instr} {s : State} (hprev : s.prev.a = 255)
    (hrgba : ∀ r g b a, i = .rgba r g b a → a = 255)
    (hindex : ∀ idx : Fin 64, i = .index idx → s.cache[idx.val].a = 255) : (execResult i s).1.a = 255 := by
  cases i with
  | rgba r g b a => exact hrgba r g b a rfl
  | index idx => exact hindex idx rfl
  | rgb | diff | luma | run => exact hprev

end Sys2Proof.Proofs
end

section
/-! PROOFS. The statements of 41_stream_cycle.md that speak of one opcode step, and of 45_run.md's first RUN. -/

namespace Sys2Proof.Proofs

open Sys2Proof.Machine Sys2Proof.Claims

/-- Settles O11: the fetch finds the unit. -/
theorem stepRunsTheDecodedUnit : Obligations.StepRunsTheDecodedUnit := by
  refine fun i s hwf hp hin hl => ⟨fun hh => ?_, fun rest hh => ?_⟩
  · rw [step_stream hp hh, streamStep_of_unit (fetch_of_placed hwf hin hl)]
  · have hfetch : fetch { s with host := rest } = .next (.unit i) := fetch_of_placed hwf hin hl
    rw [step_of_letRun hh, blockStep_stream (s := { s with host := rest }) hp, streamStep_of_unit hfetch]

/-- Settles O15: the fetch can only miss extra bytes, and only a count over one can overrun. -/
theorem whichUnitsCanFailWhichCheck : Obligations.WhichUnitsCanFailWhichCheck := by
  intro s t b hp hh hlt hb howed hstep herr
  rw [step_stream hp hh] at hstep
  obtain ⟨x, hx, hstep⟩ := andThen_eq_next.mp hstep
  rcases fetch_cases hx with ⟨hend, -⟩ | ⟨b', -, hb', hfetched⟩
  · omega
  obtain rfl : b = b' := Option.some.inj (hb.symm.trans hb')
  rcases hfetched with ⟨hshort, rfl⟩ | ⟨i, ops, -, -, -, hd, -, -, rfl⟩
  · cases hstep
    exact ⟨rfl, .inl ⟨rfl, kind_of_extra_bytes (by omega), hshort⟩⟩
  · rcases exec_cases hstep with ⟨hover, rfl⟩ | ⟨-, rfl⟩
    · rw [execResult_snd, State.pixelCount] at hover
      obtain ⟨hk, hcount⟩ := run_of_emitCount hd (by omega)
      exact ⟨rfl, .inr ⟨rfl, hk, hcount ▸ hover⟩⟩
    · rcases afterUnit_phase_cases hp i.kind (execResult i s).1 (execResult i s).2 with h | h
      · cases h.symm.trans herr
      · cases h.symm.trans herr

/-- Settles O17: the common frame raises or has its whole effect. -/
theorem everyUnitAnswersANextState : Obligations.EveryUnitAnswersANextState := exec_answers

/-- Settles O24: the one cache write of a RUN is PREV's: into slot 53 for the initial PREV, and of what stands there already for a
PREV that is cached. -/
theorem firstRunCachesInitialPrev : Obligations.FirstRunCachesInitialPrev := by
  intro n s hn hroom
  have hrun : exec (.run n) s = .next (afterUnit .run s.prev n s) := exec_of_fits (i := .run n) hroom
  refine ⟨fun hprev hcache => ?first, fun hd hopix => ⟨_, hrun, cacheUpdate_of_cached (hd.prev_cached hopix)⟩⟩
  have hslots : ∀ idx : Fin 64, (afterUnit .run s.prev n s).cache[idx.val]
      = if idx.val = 53 then Pixel.prev0 else Pixel.zero := by
    intro idx
    have hhash : idx = pixelHash Pixel.prev0 ↔ idx.val = 53 := by revert idx; decide
    rw [afterUnit_cache, cacheUpdate_getElem, hprev, hcache, Vector.getElem_replicate]
    exact if_congr hhash rfl rfl
  refine ⟨_, hrun, ?prev, hslots, fun howed => ?lookup⟩
  case prev => rw [afterUnit_prev, ite_self, hprev]
  case lookup =>
    have hread : cacheRead 53 (afterUnit .run s.prev n s) = Pixel.prev0 := hslots 53
    rw [exec_onePixel (i := .index 53) rfl howed, execResult, hread]
    rfl

/-- Settles O27: 64 divides 2^k, and an 8-bit sum is a sum modulo 2^8. -/
theorem hashNeedsSixBits : Obligations.HashNeedsSixBits := by
  intro p k hk
  have hsum : (pixelHash p).val = hashSum p % 64 := rfl
  rw [hsum, hashSum]
  constructor
  · have hdvd : 64 ∣ 2 ^ k := pow_dvd_pow 2 hk
    rw [Nat.mod_mod_of_dvd _ hdvd]
    omega
  · simp only [BitVec.extractLsb_toNat, BitVec.toNat_add, BitVec.toNat_mul, BitVec.reduceToNat, Nat.shiftRight_zero]
    omega

/-- Settles O30: the frame lemmas of the whole effect, and what a run of emits leaves of OUT. -/
theorem unitFrame : Obligations.UnitFrame := by
  intro i s hroom
  refine ⟨_, exec_of_fits hroom, ?_, rfl, rfl, rfl, rfl, rfl, rfl, rfl, rfl, rfl, rfl, rfl, fun a ha => ?_⟩
  · rw [afterUnit_phase]
    split
    · exact .inr rfl
    · exact .inl rfl
  · exact read_outAfter_outside (pixel_bytes_le _ _) s.outMem ha

/-- Settles O33: the pixel and the count are the same under any C, and the common frame uses C for OUT alone. -/
theorem channelCountOnlyShapesOutput : Obligations.ChannelCountOnlyShapesOutput := by
  intro i s c hroom
  refine ⟨_, _, exec_of_fits hroom, exec_of_fits (s := { s with c := c }) hroom, ?_⟩
  rw [execResult_with_channels]
  rfl

/-- Settles O34: the pixel the unit returns is the only one that PREV and CACHE receive. -/
theorem alphaStaysOpaque : Obligations.AlphaStaysOpaque := by
  intro i s hroom hprev hrgba hindex
  have hopaque := execResult_opaque hprev hrgba hindex
  refine ⟨_, exec_of_fits hroom, ?_, fun idx hne => ?_⟩
  · rw [afterUnit_prev]
    split
    · exact hprev
    · exact hopaque
  · rw [afterUnit_cache, cacheUpdate_getElem] at hne ⊢
    split at hne
    · rwa [if_pos ‹_›]
    · exact absurd rfl hne

end Sys2Proof.Proofs
end

section
/-! SUPPORT. When a step answers, what it leaves of the host's schedule, and what its outcomes do to PHASE, the header's fields, the
memories and the parameters. -/

namespace Sys2Proof.Proofs

open Sys2Proof.Machine Sys2Proof.Claims

/-! ### The step without a fault -/

/-- With the input resident, and IPTR inside it while a decode runs, the block's step answers. -/
theorem blockStep_answers {s : State} (hr : Memory.resident s.inMem s.l) (hi : s.phase = .stream → s.iptr ≤ s.l) :
    ∃ t, blockStep s = .next t := by
  cases hp : s.phase with
  | idle | done | error => exact ⟨s, by rw [blockStep, hp]⟩
  | header =>
    rw [blockStep, hp]
    exact headerStep_resident hr
  | stream =>
    rw [blockStep_stream hp]
    exact streamStep_answers hr (hi hp)

theorem blockStep_answers_of_inv {s : State} (i : s.Inv) : ∃ t, blockStep s = .next t :=
  blockStep_answers i.input_resident fun hp => (i.streaming hp).1.iptr_high

/-- A host command answers or is refused under the name of a host duty (log 6). -/
theorem hostCommand_answers_or_duty (k : HostCommand) (s : State) :
    (∃ t, hostCommand k s = .next t) ∨ ∃ r, hostCommand k s = .refused r ∧ r.hostDuty = true := by
  cases k with
  | placeInput off bs =>
    rw [hostCommand]
    split
    · exact .inr ⟨_, rfl, rfl⟩
    · split
      · exact .inr ⟨_, rfl, rfl⟩
      · exact .inl ⟨_, rfl⟩
  | start len =>
    rw [hostCommand]
    split
    · exact .inr ⟨_, rfl, rfl⟩
    · split
      · exact .inl ⟨_, rfl⟩
      · exact .inr ⟨_, rfl, rfl⟩
  | abort => exact .inl ⟨_, rfl⟩
  | reset => exact .inl ⟨_, rfl⟩

/-- A byte that was written reads back. -/
theorem read_writeBytes_inside (m : Memory) (a : Nat) {vs : List Byte} {k : Nat} (hk : k < vs.length) :
    Memory.read (Memory.writeBytes m a vs) (a + k) = vs[k]? := by
  rw [Memory.read_writeBytes, if_pos (by omega), Nat.add_sub_cancel_left]

/-! ### The invariant, through the host's commands and the block's step -/

theorem inv_blockStep {s t : State} (i : s.Inv) (h : blockStep s = .next t) : t.Inv := by
  rcases blockStep_cases h with ⟨-, rfl⟩ | ⟨hp, h⟩ | ⟨hp, h⟩
  · exact i
  · exact inv_headerStep i hp h
  · exact inv_streamStep i hp h

theorem inv_hostCommand {k : HostCommand} {s t : State} (i : s.Inv) (h : hostCommand k s = .next t) : t.Inv := by
  rcases hostCommand_cases h with ⟨off, bs, -, hb, hfit, rfl⟩ | ⟨len, -, hfit, hin, rfl⟩ | ⟨-, rfl⟩ | ⟨-, rfl⟩
  · exact inv_placeInput i hb hfit
  · exact inv_start i hfit hin
  · exact inv_abort i
  · exact inv_reset i

/-! ### What a step can change -/

/-- The states a step can leave, one constructor per outcome of `step_outcomes`, each with the phase or the host move that allows
it. -/
inductive StepUpdate (s : State) : State → Prop
  | rest : StepUpdate s s.dropMove
  | fail (hp : s.phase = .header ∨ s.phase = .stream) (k : ErrKind) (off : Nat) : StepUpdate s (raise k off s.dropMove)
  | commit (hp : s.phase = .header) (w h : Dim) (c cs : Byte) : StepUpdate s (commitHeader w h c cs s.dropMove)
  | unit (hp : s.phase = .stream) (k : Kind) (p : Pixel) (n : Nat) : StepUpdate s (afterUnit k p n s.dropMove)
  | place (hb : s.phase.busy = false) (off : Nat) (bs : List Byte) (later : List HostMove)
    (hh : s.host = .command (.placeInput off bs) :: later) : StepUpdate s (placeInput off bs s.dropMove)
  | start (len : Nat) (later : List HostMove) (hh : s.host = .command (.start len) :: later) :
    StepUpdate s (startDecode len s.dropMove)
  | abort (later : List HostMove) (hh : s.host = .command .abort :: later) : StepUpdate s (abortDecode s.dropMove)
  | reset (later : List HostMove) (hh : s.host = .command .reset :: later) : StepUpdate s (resetBlock s.dropMove)

theorem stepUpdate_of_step {s t : State} (h : step s = .next t) : StepUpdate s t := by
  rcases step_outcomes h with ⟨-, hblock⟩ | ⟨k, later, hh, hcommand⟩
  · rcases hblock with ⟨-, rfl⟩ | ⟨hp, ⟨k, off, -, -, rfl⟩ | ⟨w, ht, c, cs, rfl⟩⟩
      | ⟨hp, ⟨k, off, -, -, rfl⟩ | rfl | ⟨i, -, -, -, rfl⟩⟩
    · exact .rest
    · exact .fail (.inl hp) k off
    · exact .commit hp w ht c cs
    · exact .fail (.inr hp) k off
    · exact .fail (.inr hp) _ _
    · exact .unit hp _ _ _
  · rcases hcommand with ⟨off, bs, rfl, hb, rfl⟩ | ⟨len, rfl, rfl⟩ | ⟨rfl, rfl⟩ | ⟨rfl, rfl⟩
    · exact .place hb off bs later hh
    · exact .start len later hh
    · exact .abort later hh
    · exact .reset later hh

/-- A step takes the host's next move off the schedule and adds none (log 5). -/
theorem step_host {s t : State} (h : step s = .next t) : t.host = s.host.tail := by
  cases stepUpdate_of_step h <;> rfl

theorem not_busy_iff {q : Phase} : q.busy = false ↔ q ≠ .header ∧ q ≠ .stream := by
  cases q <;> decide

end Sys2Proof.Proofs
end

section
/-! PROOFS. The statements on the whole machine that speak of one step. -/

namespace Sys2Proof.Proofs

open Sys2Proof.Machine Sys2Proof.Claims

/-- Settles O37: the invariant does not look at the host's schedule, and the block's step and each host command keep it. -/
theorem stepKeepsTheInvariant : Obligations.StepKeepsTheInvariant := by
  intro s t i h
  rcases step_cases h with ⟨-, hblock⟩ | ⟨k, rest, -, hcommand⟩
  · exact inv_blockStep (inv_dropMove i) hblock
  · exact inv_hostCommand (inv_dropMove i) hcommand

/-- Settles O38: the block's step answers over a resident input, and a command that does not is refused for a duty. -/
theorem noFaultUnderTheInvariant : Obligations.NoFaultUnderTheInvariant := by
  intro s i
  have hblock : ∃ t, blockStep s.dropMove = .next t := blockStep_answers_of_inv (inv_dropMove i)
  match hh : s.host with
  | [] =>
    rw [dropMove_of_no_move hh, ← step_of_no_move hh] at hblock
    exact .inl hblock
  | .letRun :: rest =>
    rw [State.dropMove, hh, List.tail_cons, ← step_of_letRun hh] at hblock
    exact .inl hblock
  | .command k :: rest =>
    rw [step_of_command hh]
    rcases hostCommand_answers_or_duty k { s with host := rest } with hnext | ⟨r, hr, hduty⟩
    · exact .inl hnext
    · exact .inr ⟨r, k, rest, hr, rfl, hduty⟩

/-- Settles O39: the one entry a unit writes sits at its own hash; no other outcome of a step writes one but the zero pixel. -/
theorem cacheLawIsKept : Obligations.CacheLawIsKept := by
  intro s t hlaw h
  cases stepUpdate_of_step h with
  | unit hp k p n => exact cacheLaw_congr (cacheLaw_update (s := s.dropMove) hlaw p) rfl
  | rest | fail | commit | place | abort => exact cacheLaw_congr hlaw rfl
  | start | reset => exact cacheLaw_replicate rfl

/-- Settles O40: writes of bytes keep the form, and the other outcomes keep a memory or empty it. -/
theorem memoriesStayCanonical : Obligations.MemoriesStayCanonical := by
  intro s t hin hout h
  cases stepUpdate_of_step h with
  | unit => exact ⟨hin, outAfter_wf hout _ _ _ _⟩
  | place => exact ⟨Memory.writeBytes_wf hin _ _, hout⟩
  | rest | fail | commit | abort => exact ⟨hin, hout⟩
  | start | reset => exact ⟨hin, List.Pairwise.nil⟩

/-- Settles O41: the bounds check of a MemWrite, and what its byte writes leave to read. -/
theorem memWriteReadsBack : Obligations.MemWriteReadsBack := by
  intro a v s
  exact ⟨fun hin => ⟨_, if_pos hin, fun k hk => read_writeBytes_inside s.outMem a hk,
    fun x hx => Memory.read_writeBytes_outside s.outMem v hx⟩, fun hout => if_neg (Nat.not_le.mpr hout)⟩

/-- Settles O42: an opcode step is an error entry, or a unit that lies before L moves IPTR by its length. -/
theorem opcodeStepMovesForward : Obligations.OpcodeStepMovesForward := by
  intro s i hp hh
  obtain ⟨hd, -⟩ := i.streaming hp
  obtain ⟨t, ht⟩ := streamStep_answers i.input_resident hd.iptr_high
  rw [step_stream hp hh]
  refine ⟨t, ht, ?_⟩
  rcases streamStep_cases ht with ⟨k, off, -, -, rfl⟩ | ⟨u, b, -, -, -, hl, hexec⟩
  · exact .inl ⟨rfl, rfl⟩
  · rcases exec_cases hexec with ⟨-, rfl⟩ | ⟨-, rfl⟩
    · exact .inl ⟨rfl, rfl⟩
    · have hpos := unitLen_pos u.kind
      have hlow := hd.iptr_low
      refine .inr ⟨afterUnit_phase_cases hp _ _ _, ?_, ?_, hl, rfl⟩
      · rw [afterUnit_iptr]; omega
      · rw [afterUnit_iptr]; omega

/-- Settles O44: each outcome of a step, by the phase or the command that allows it. -/
theorem phaseTransitions : Obligations.PhaseTransitions := by
  intro s t h hne
  cases stepUpdate_of_step h with
  | rest | place => exact absurd rfl hne
  | fail hp k off => exact .inr (hp.imp (⟨·, .inr rfl⟩) (⟨·, .inr rfl⟩))
  | commit hp => exact .inr (.inl ⟨hp, .inl rfl⟩)
  | unit hp k p n =>
    rcases afterUnit_phase_cases (s := s.dropMove) hp k p n with hstream | hdone
    · exact absurd (hstream.trans hp.symm) hne
    · exact .inr (.inr ⟨hp, .inl hdone⟩)
  | start len later hh => exact .inl ⟨_, later, hh, .inr (.inr ⟨len, rfl, rfl⟩)⟩
  | abort later hh => exact .inl ⟨_, later, hh, .inl ⟨rfl, rfl⟩⟩
  | reset later hh => exact .inl ⟨_, later, hh, .inr (.inl ⟨rfl, rfl⟩)⟩

/-- Settles O45: of the outcomes of a step three write W, H, C or CS. -/
theorem headerIsImmutableAfterParse : Obligations.HeaderIsImmutableAfterParse := by
  intro s t h hne
  cases stepUpdate_of_step h with
  | commit hp => exact .inl ⟨hp, rfl⟩
  | start len later hh => exact .inr ⟨_, later, hh, .inr ⟨len, rfl⟩⟩
  | reset later hh => exact .inr ⟨_, later, hh, .inl rfl⟩
  | rest | fail | unit | place | abort =>
    rcases hne with hne | hne | hne | hne
    all_goals exact absurd rfl hne

/-- Settles O46: of the outcomes of a step the host's placing alone writes IN, and none the parameters. -/
theorem inputIsNeverWrittenByTheBlock : Obligations.InputIsNeverWrittenByTheBlock := by
  intro s t h
  cases stepUpdate_of_step h with
  | place hb off bs later hh =>
    obtain ⟨hheader, hstream⟩ := not_busy_iff.mp hb
    exact ⟨rfl, fun _ => ⟨hheader, hstream, off, bs, later, hh⟩⟩
  | rest | fail | commit | unit | start | abort | reset => exact ⟨rfl, fun hne => absurd rfl hne⟩

/-- Settles O36: nothing is placed, nothing written, and IDLE asks for no more. -/
theorem resetMeetsTheInvariant : Obligations.ResetMeetsTheInvariant := by
  have hinv : State.reset.Inv :=
    { params := by decide, in_wf := List.Pairwise.nil, out_wf := List.Pairwise.nil, in_fits := nofun
      len_fits := Nat.zero_le _, input_resident := nofun, cache_law := cacheLaw_replicate rfl
      started := nofun, streaming := nofun, finished := nofun, failed := nofun }
  exact ⟨hinv, rfl, rfl, rfl, rfl, rfl, rfl, rfl, rfl, rfl, fun idx => Vector.getElem_replicate _, rfl, rfl⟩

end Sys2Proof.Proofs
end

section
/-! SUPPORT. Runs of many steps: what every step of a run keeps, and what ends a run. -/

namespace Sys2Proof.Proofs

open Sys2Proof.Machine Sys2Proof.Claims

/-- What every step keeps, a run keeps. -/
theorem steps_keep {P : State → Prop} (hstep : ∀ s t, P s → step s = .next t → P t) {k : Nat} {s t : State} (hs : P s)
    (h : steps k s = .next t) : P t := by
  induction k generalizing s with
  | zero =>
    cases h
    exact hs
  | succ k ih =>
    rw [steps_succ, andThen_eq_next] at h
    obtain ⟨u, hu, h⟩ := h
    exact ih (hstep s u hs hu) h

/-- With no host move a step leaves the host's schedule, L and IN alone (20_memory.md R63). -/
theorem step_keeps_input {s t : State} (hh : s.host = []) (h : step s = .next t) :
    t.host = [] ∧ t.l = s.l ∧ t.inMem = s.inMem := by
  refine ⟨by rw [step_host h, hh, List.tail_nil], ?_⟩
  cases stepUpdate_of_step h with
  | rest | fail | commit | unit => exact ⟨rfl, rfl⟩
  | place _ _ _ later hcommand | start _ later hcommand | abort later hcommand | reset later hcommand =>
    cases hh.symm.trans hcommand

theorem phase_cases (q : Phase) : q.busy = false ∨ q = .header ∨ q = .stream := by
  cases q <;> decide

/-- In IDLE, DONE and ERROR the block takes no step (log 7). -/
theorem step_at_rest {s : State} (hb : s.phase.busy = false) (hh : s.host = []) : step s = .next s := by
  rw [step_of_no_move hh, blockStep]
  cases hp : s.phase with
  | idle | done | error => rfl
  | header | stream => rw [hp] at hb; cases hb

/-- The decode is over: DONE or ERROR (60_exceptions.md R219). -/
def Ended (s : State) : Prop :=
  s.phase = .done ∨ s.phase = .error

theorem ended_raise (k : ErrKind) (off : Nat) (s : State) : Ended (raise k off s) :=
  .inr rfl

theorem Ended.step {s : State} (he : Ended s) (hh : s.host = []) : step s = .next s :=
  he.elim (step_done · hh) (step_error · hh)

theorem Ended.steps {s : State} (he : Ended s) (hh : s.host = []) (k : Nat) : steps k s = .next s := by
  induction k with
  | zero => rfl
  | succ k ih => rw [steps_succ, he.step hh, andThen_next, ih]

/-- From STREAM a decode ends within one step more than there are bytes left, each step but the last taking one at least. -/
theorem stream_ends {n : Nat} {s : State} (i : s.Inv) (hp : s.phase = .stream) (hh : s.host = []) (hn : s.l < s.iptr + n) :
    ∃ t, steps n s = .next t ∧ Ended t := by
  induction n generalizing s with
  | zero =>
    have hhigh := (i.streaming hp).1.iptr_high
    omega
  | succ n ih =>
    obtain ⟨u, hu, hcases⟩ := opcodeStepMovesForward s i hp hh
    obtain ⟨hhu, -, -⟩ := step_keeps_input hh hu
    rw [steps_succ, hu, andThen_next]
    rcases hcases with ⟨herror, -⟩ | ⟨hstream | hdone, hforward, -, -, hl⟩
    · exact ⟨u, Ended.steps (.inr herror) hhu n, .inr herror⟩
    · exact ih (stepKeepsTheInvariant s u i hu) hstream hhu (by omega)
    · exact ⟨u, Ended.steps (.inl hdone) hhu n, .inl hdone⟩

/-! ### Two inputs that agree below L -/

/-- The second outcome is the first with IN replaced, where the first answers. -/
def CarriesOver (m : Memory) (o o' : Host.Outcome State Fault Refusal) : Prop :=
  ∀ t, o = .next t → o' = .next { t with inMem := m }

theorem CarriesOver.check {m : Memory} {s : State} {bad : Prop} [Decidable bad] {k : ErrKind} {off : Nat}
    {rest rest' : Host.Outcome State Fault Refusal} (h : CarriesOver m rest rest') :
    CarriesOver m (if bad then .next (raise k off s) else rest)
      (if bad then .next (raise k off { s with inMem := m }) else rest') := by
  by_cases hb : bad
  · rw [if_pos hb, if_pos hb]
    rintro _ ⟨⟩
    rfl
  · rwa [if_neg hb, if_neg hb]

theorem CarriesOver.andThen {α : Type} {m : Memory} {o o' : Host.Outcome α Fault Refusal}
    {f f' : α → Host.Outcome State Fault Refusal} (ho : o' = o) (h : ∀ x, CarriesOver m (f x) (f' x)) :
    CarriesOver m (andThen o f) (andThen o' f') := by
  intro t ht
  obtain ⟨x, hx, hf⟩ := andThen_eq_next.mp ht
  rw [ho, hx, andThen_next, h x t hf]

section
variable {s : State} {m : Memory} (hm : ∀ a < s.l, Memory.read m a = Memory.read s.inMem a)
include hm

theorem inByte_congr (a : Nat) : inByte a { s with inMem := m } = inByte a s := by
  by_cases hl : s.l ≤ a
  · rw [inByte, inByte, if_pos hl, if_pos hl]
  · rw [inByte, inByte, if_neg hl, if_neg hl, hm a (by omega)]

theorem readPlaced_congr {a n : Nat} (hl : a + n ≤ s.l) : readPlaced m a n = readPlaced s.inMem a n := by
  induction n generalizing a with
  | zero => rfl
  | succ n ih => rw [readPlaced, readPlaced, hm a (by omega), ih (by omega)]

theorem memRead_congr (a n : Nat) : memRead a n { s with inMem := m } = memRead a n s := by
  by_cases hl : a + n ≤ s.l
  · rw [memRead, memRead, if_pos hl, if_pos hl, readPlaced_congr hm hl]
  · rw [memRead, memRead, if_neg hl, if_neg hl]

/-- The header step reads IN through MemRead and `IN[a]` alone. -/
theorem headerStep_congr : CarriesOver m (headerStep s) (headerStep { s with inMem := m }) := by
  unfold headerStep
  refine .check <| .andThen (memRead_congr hm 0 4) fun tag => .check <| .check <| ?_
  refine .andThen (memRead_congr hm 4 4) fun wBytes => .check <| .check <| ?_
  refine .andThen (memRead_congr hm 8 4) fun hBytes => .check <| .check <| ?_
  refine .andThen (inByte_congr hm 12) fun c => .check <| .check <| .check <| ?_
  refine .andThen (inByte_congr hm 13) fun cs => .check <| .check ?_
  rintro _ ⟨⟩
  rfl

theorem fetch_congr : fetch { s with inMem := m } = fetch s := by
  simp only [fetch, inByte_congr hm, memRead_congr hm]

theorem streamStep_congr : CarriesOver m (streamStep s) (streamStep { s with inMem := m }) := by
  refine .andThen (fetch_congr hm) fun x t ht => ?_
  cases x with
  | unit i => exact exec_inMem ht m
  | error k off =>
    cases ht
    rfl

theorem step_congr (hh : s.host = []) : CarriesOver m (step s) (step { s with inMem := m }) := by
  rcases phase_cases s.phase with hb | hp | hp
  · rw [step_at_rest hb hh, step_at_rest (s := { s with inMem := m }) hb hh]
    rintro _ ⟨⟩
    rfl
  · rw [step_header hp hh, step_header (s := { s with inMem := m }) hp hh]
    exact headerStep_congr hm
  · rw [step_stream hp hh, step_stream (s := { s with inMem := m }) hp hh]
    exact streamStep_congr hm

end

/-- With no host move a run depends on no byte of IN at or past L, and passes IN on. -/
theorem steps_congr {s : State} {m : Memory} (hm : ∀ a < s.l, Memory.read m a = Memory.read s.inMem a) (hh : s.host = [])
    (k : Nat) : CarriesOver m (steps k s) (steps k { s with inMem := m }) := by
  induction k generalizing s with
  | zero =>
    rintro _ ⟨⟩
    rfl
  | succ k ih =>
    intro t ht
    rw [steps_succ, andThen_eq_next] at ht
    obtain ⟨u, hu, ht⟩ := ht
    obtain ⟨hhu, hl, hin⟩ := step_keeps_input hh hu
    rw [steps_succ, step_congr hm hh u hu, andThen_next]
    exact ih (by rwa [hl, hin]) hhu t ht

/-- START leaves nothing of the state before it but IN, the parameters and the host's moves (70_reset_and_hazards.md R231). -/
theorem startDecode_eq {s u : State} (len : Nat) (hparams : s.params = u.params) (hhost : s.host = u.host) :
    startDecode len u = { startDecode len s with inMem := u.inMem } := by
  simp only [startDecode, hparams, hhost]

/-! ### A list of units -/

theorem execAll_cons {s : State} (hp : s.phase = .stream) (i : Instr) (is : List Instr) :
    execAll (i :: is) s = andThen (exec i s) (execAll is) := by
  rw [execAll, hp]

theorem Ended.execAll {s : State} (he : Ended s) (is : List Instr) : execAll is s = .next s := by
  cases is with
  | nil => rfl
  | cons i is => rcases he with hp | hp <;> rw [Claims.execAll, hp]

/-! ### A file of RGBA literals -/

/-- One RGBA literal per pixel (30_encoding.md R73). -/
def literals (px : List Pixel) : List Instr :=
  px.map fun p => .rgba p.r p.g p.b p.a

theorem encodeAll_literals_length (px : List Pixel) : (encodeAll (literals px)).length = 5 * px.length := by
  induction px with
  | nil => rfl
  | cons p px ih =>
    have hfirst : (encodeAll (literals (p :: px))).length = (encodeAll (literals px)).length + 5 := rfl
    rw [hfirst, ih, List.length_cons, Nat.mul_succ]

/-- `t` is `s` with the pixels `px` written from OPIX on, four bytes each, and the header's fields kept. -/
structure WritesPixels (px : List Pixel) (s t : State) : Prop where
  fields : t.w = s.w ∧ t.h = s.h ∧ t.c = s.c ∧ t.cs = s.cs
  below : ∀ a < s.opix * 4, Memory.read t.outMem a = Memory.read s.outMem a
  pixels : ∀ k j, k < px.length → j < 4 →
    Memory.read t.outMem ((s.opix + k) * 4 + j) = (px[k]?).bind fun p => p.bytes[j]?

/-- One literal with a pixel owed writes that pixel. -/
theorem writesPixels_afterUnit {s : State} (hc : s.c = 4) (p : Pixel) : WritesPixels [p] s (afterUnit .rgba p 1 s) where
  fields := ⟨rfl, rfl, rfl, rfl⟩
  below a ha := by
    have hbelow : a < s.opix * s.c.toNat := by rw [hc]; exact ha
    exact read_outAfter_outside (pixel_bytes_le p _) s.outMem (.inl hbelow)
  pixels k j hk hj := by
    obtain rfl : k = 0 := by simpa using hk
    have hread := read_afterEmits (s := s) (.inr hc) p (n := 1) (k := 0) (j := j) (by omega) (by rw [hc]; exact hj)
    rwa [hc] at hread

theorem WritesPixels.cons {p : Pixel} {px : List Pixel} {s u t : State} (hfirst : WritesPixels [p] s u)
    (hopix : u.opix = s.opix + 1) (hrest : WritesPixels px u t) : WritesPixels (p :: px) s t where
  fields := by
    obtain ⟨hw, hh, hc, hcs⟩ := hfirst.fields
    obtain ⟨hw', hh', hc', hcs'⟩ := hrest.fields
    exact ⟨hw'.trans hw, hh'.trans hh, hc'.trans hc, hcs'.trans hcs⟩
  below a ha := (hrest.below a (by omega)).trans (hfirst.below a ha)
  pixels k j hk hj := by
    cases k with
    | zero => exact (hrest.below _ (by omega)).trans (hfirst.pixels 0 j (by simp) hj)
    | succ k =>
      have hread := hrest.pixels k j (by simpa using hk) hj
      rwa [hopix, show s.opix + 1 + k = s.opix + (k + 1) by omega] at hread

/-- The literals of all pixels still owed write them and end the decode. -/
theorem execAll_literals {px : List Pixel} {s : State} (hc : s.c = 4) (howed : s.opix + px.length = s.pixelCount)
    (hp : s.phase = if px = [] then .done else .stream) :
    ∃ t, execAll (literals px) s = .next t ∧ t.phase = .done ∧ WritesPixels px s t := by
  induction px generalizing s with
  | nil => exact ⟨s, rfl, hp, ⟨rfl, rfl, rfl, rfl⟩, fun _ _ => rfl, nofun⟩
  | cons p px ih =>
    rw [if_neg (List.cons_ne_nil p px)] at hp
    rw [List.length_cons] at howed
    have hexec : exec (.rgba p.r p.g p.b p.a) s = .next (afterUnit .rgba p 1 s) :=
      exec_of_fits (i := .rgba p.r p.g p.b p.a) (fits_iff.mpr (by rw [emitCount]; omega))
    have hphase : (afterUnit .rgba p 1 s).phase = if px = [] then .done else .stream := by
      rw [afterUnit_phase, hp]
      exact if_congr (by rw [← List.length_eq_zero_iff]; omega) rfl rfl
    have howed' : (afterUnit .rgba p 1 s).opix + px.length = s.pixelCount := by rw [afterUnit_opix]; omega
    obtain ⟨t, ht, hdone, hwrites⟩ := ih (s := afterUnit .rgba p 1 s) hc howed' hphase
    refine ⟨t, ?_, hdone, (writesPixels_afterUnit hc p).cons rfl hwrites⟩
    rw [literals, List.map_cons, execAll_cons hp, hexec, andThen_next]
    exact ht

end Sys2Proof.Proofs
end

section
/-! PROOFS. The statements on runs of many steps. -/

namespace Sys2Proof.Proofs

open Sys2Proof.Machine Sys2Proof.Claims

/-- Settles O47: after START the two states differ in IN alone, which agrees below L, and a run reads no more. -/
theorem decodesOfEqualInputsAgree : Obligations.DecodesOfEqualInputsAgree := by
  intro len k s u hs hu hparams hin t ht
  have hstart := startDecode_eq len hparams (hs.trans hu.symm)
  have hagree : ∀ a < (startDecode len s).l, Memory.read u.inMem a = Memory.read (startDecode len s).inMem a :=
    fun a ha => (hin a ha).symm
  exact ⟨_, hstart ▸ steps_congr hagree hs k t ht, rfl⟩

/-- Settles O48: one header step, and from STREAM at offset 14 at most one step more than there are bytes left. -/
theorem everyDecodeEnds : Obligations.EveryDecodeEnds := by
  intro s i hp hh
  obtain ⟨n, hn⟩ : ∃ n, max 1 (s.l - 12) = n + 1 := ⟨max 1 (s.l - 12) - 1, by omega⟩
  obtain ⟨u, hu⟩ := headerStep_resident i.input_resident
  have hstep : step s = .next u := (step_header hp hh).trans hu
  have iu := stepKeepsTheInvariant s u i hstep
  rw [hn, steps_succ, hstep, andThen_next]
  rcases headerStep_cases hu with ⟨k, off, -, -, rfl⟩ | ⟨w, h, c, cs, -, -, -, -, -, hl, rfl⟩
  · exact ⟨_, (ended_raise k off s).steps hh n, ended_raise k off s⟩
  · exact stream_ends iu rfl hh (by rw [commitHeader_l, commitHeader_iptr]; omega)

/-- Settles O49: the invariant's pace, at the end of the input at most. -/
theorem successNeedsEnoughBytes : Obligations.SuccessNeedsEnoughBytes := by
  intro k s t i h hdone
  obtain ⟨hd, hall⟩ := (steps_keep stepKeepsTheInvariant i h).finished hdone
  have hpace := hd.pace
  have hhigh := hd.iptr_high
  rw [hall, State.pixelCount] at hpace
  omega

/-- Settles O50, by induction on the list: each step runs its first unit, and goes on with the others while the phase is STREAM. -/
theorem streamStepsAreUnitExecutions : Obligations.StreamStepsAreUnitExecutions := by
  intro is
  induction is with
  | nil => exact fun s _ _ _ _ _ => rfl
  | cons i is ih =>
    intro s hwf hp hh hin hl
    have hi : i.wf = true := hwf i List.mem_cons_self
    rw [encodeAll, placed_append, encode_length hi] at hin
    rw [encodeAll, List.length_append, encode_length hi] at hl
    obtain ⟨hfirst, hrest⟩ := hin
    have hstep : step s = exec i s := (stepRunsTheDecodedUnit i s hi hp hfirst (by rw [encode_length hi]; omega)).1 hh
    obtain ⟨t, ht⟩ := exec_answers i s
    rw [List.length_cons, steps_succ, execAll_cons hp, hstep, ht, andThen_next, andThen_next]
    rcases exec_cases ht with ⟨-, rfl⟩ | ⟨-, rfl⟩
    · have he := ended_raise .malformedStream s.iptr s
      exact (he.steps hh _).trans (he.execAll is).symm
    · rcases afterUnit_phase_cases hp i.kind (execResult i s).1 (execResult i s).2 with hstream | hdone
      · have hl' : s.iptr + unitLen i.kind + (encodeAll is).length ≤ s.l := by omega
        exact ih _ (fun j hj => hwf j (List.mem_cons_of_mem i hj)) hstream hh hrest hl'
      · have he : Ended (afterUnit i.kind (execResult i s).1 (execResult i s).2 s) := .inl hdone
        exact (he.steps hh _).trans (he.execAll is).symm

/-- Settles O51: the header step commits, and the steps after it are the executions of the literals. -/
theorem rgbaImagesDecodeExactly : Obligations.RgbaImagesDecodeExactly := by
  intro s w h cs px i hp hh hw0 hh0 hcs hlen hfits hin hl
  obtain ⟨hheader, hunits⟩ := placed_append.mp hin
  have hpos : 0 < px.length := by
    rw [hlen]
    exact Nat.mul_pos (Nat.pos_of_ne_zero fun e => hw0 (BitVec.eq_of_toNat_eq e))
      (Nat.pos_of_ne_zero fun e => hh0 (BitVec.eq_of_toNat_eq e))
  have hcommit : step s = .next (commitHeader w h 4 cs s) :=
    headerRoundTrip s w h 4 cs hp hh hw0 hh0 (.inr rfl) hcs hfits (by omega) hheader
  have hopix : (commitHeader w h 4 cs s).opix = 0 := (i.started hp).cursors.2
  have hwf : ∀ u ∈ literals px, u.wf = true := List.forall_mem_map.mpr fun _ _ => rfl
  have hsteps := streamStepsAreUnitExecutions (literals px) (commitHeader w h 4 cs s) hwf rfl hh hunits
    (by rw [encodeAll_literals_length]; exact hl)
  rw [literals, List.length_map, ← literals] at hsteps
  obtain ⟨t, ht, hdone, hwrites⟩ := execAll_literals (px := px) (s := commitHeader w h 4 cs s) rfl
    (by rw [hopix, Nat.zero_add]; exact hlen) (if_neg (List.length_pos_iff.mp hpos)).symm
  obtain ⟨htw, hth, htc, htcs⟩ := hwrites.fields
  refine ⟨t, ?_, hdone, htw, hth, htc, htcs, fun k j hk hj => ?_⟩
  · rw [steps_succ, hcommit, andThen_next, hsteps, ht]
  · have hread := hwrites.pixels k j hk hj
    rwa [hopix, Nat.zero_add] at hread

end Sys2Proof.Proofs
end

section
/-! SUPPORT. The byte of a DIFF. -/

namespace Sys2Proof.Proofs

open Sys2Proof.Machine Sys2Proof.Claims

/-- The byte `01rrggbb` of a DIFF, its three fields added to the tag (30_encoding.md R75). -/
theorem diff_opcode_byte (x y z : Fin 4) :
    let b : Byte := BitVec.ofNat 8 (64 + 16 * x.val + 4 * y.val + z.val)
    classify b = .diff ∧ field 5 4 b = x.val ∧ field 3 2 b = y.val ∧ field 1 0 b = z.val := by
  revert x y z; decide

/-- A DIFF byte is DIFF of its fields less two, whatever follows it (30_encoding.md R75, R81). -/
theorem decode_diff_byte (x y z : Fin 4) (rest : List Byte) :
    decode (BitVec.ofNat 8 (64 + 16 * x.val + 4 * y.val + z.val) :: rest)
      = .ok (.diff ((x.val : Int) - 2) ((y.val : Int) - 2) ((z.val : Int) - 2), rest) := by
  obtain ⟨hkind, hred, hgreen, hblue⟩ := diff_opcode_byte x y z
  rw [decode_diff hkind, hred, hgreen, hblue]
  rfl

end Sys2Proof.Proofs
end

section
/-! PROOFS. The statement of 44_delta.md on DIFF. -/

namespace Sys2Proof.Proofs

open Sys2Proof.Machine Sys2Proof.Claims

/-- Settles O21: the DIFF case of the decoder and of the common frame, one channel sum for each lane, and its fetch, which can only
miss the opcode byte. -/
theorem diffUnit : Obligations.DiffUnit := by
  intro s x y z
  refine ⟨decode_diff_byte x y z, fun dr dg db hroom => ?_, endOfInputRaisesMalformed s⟩
  exact ⟨deltaPixel dr dg db s.prev, exec_onePixel (i := .diff dr dg db) rfl hroom, chAdd_toNat s.prev.r dr,
    chAdd_toNat s.prev.g dg, chAdd_toNat s.prev.b db, rfl⟩

end Sys2Proof.Proofs
end

section
/-! SUPPORT. The bytes of OUT in DONE, the widths of the cursors and the packing of a cache word. -/

namespace Sys2Proof.Proofs

open Sys2Proof.Machine Sys2Proof.Claims

/-! ### OUT in DONE -/

/-- Once every pixel is emitted every byte of the result is written (41_stream_cycle.md R136 (c)). -/
theorem out_written {s : State} (hd : s.Decoding) (hall : s.opix = s.pixelCount) {a : Nat} (ha : a < s.outSize) :
    ∃ v, Memory.read s.outMem a = some v := by
  have hkeys : s.outMem.map Prod.fst = List.range s.outSize := by rw [hd.out, hall]; rfl
  rw [← Option.isSome_iff_exists, Memory.read_isSome_iff, hkeys]
  exact List.mem_range.mpr ha

theorem hostReadOut_done {s : State} {a : Nat} {v : Byte} (hp : s.phase = .done) (ha : a < s.outSize)
    (hv : Memory.read s.outMem a = some v) (n : Nat) : hostReadOut n a s = v := by
  simp only [hostReadOut, hp, hv, if_pos ha]

/-- The observed image of a finished decode is OUT itself, byte for byte. -/
theorem observed_byte {s : State} (hp : s.phase = .done) (hd : s.Decoding) (hall : s.opix = s.pixelCount) {a : Nat}
    (ha : a < s.outSize) (n : Nat) :
    ((List.range s.outSize).map fun a => hostReadOut n a s)[a]? = Memory.read s.outMem a := by
  obtain ⟨v, hv⟩ := out_written hd hall ha
  rw [List.getElem?_map, List.getElem?_range ha, Option.map_some, hostReadOut_done hp ha hv, hv]

/-! ### Widths -/

/-- An offset up to P_IN_MAX fits the least width of L, IPTR and ERR_OFF (00_scope.md R6). -/
theorem lt_offsetWidth {q : Params} {x : Nat} (h : x ≤ q.pInMax) : x < 2 ^ q.offsetWidth :=
  (Nat.lt_succ_of_le h).trans_le (Nat.le_pow_clog (by decide) _)

/-- A count whose pixels, of three bytes at least, fit in OUT fits the least width of OPIX (00_scope.md R6). -/
theorem lt_pixelWidth {q : Params} {x c : Nat} (hc : 3 ≤ c) (h : x * c ≤ q.pOutCap) : x < 2 ^ q.pixelWidth := by
  have hthree : x * 3 ≤ q.pOutCap := (Nat.mul_le_mul_left x hc).trans h
  have hcount : x ≤ q.pOutCap / 3 := (Nat.le_div_iff_mul_le (by decide)).mpr hthree
  exact (Nat.lt_succ_of_le hcount).trans_le (Nat.le_pow_clog (by decide) _)

/-- Between opcode steps and in DONE both cursors fit, OPIX being at most W*H. -/
theorem cursors_fit {s : State} (i : s.Inv) (hd : s.Decoding) (hle : s.opix ≤ s.pixelCount) :
    s.iptr < 2 ^ s.params.offsetWidth ∧ s.opix < 2 ^ s.params.pixelWidth := by
  have hc : 3 ≤ s.c.toNat := by rcases hd.image.channels with h | h <;> rw [h] <;> decide
  have hbytes : s.opix * s.c.toNat ≤ s.params.pOutCap := (Nat.mul_le_mul_right _ hle).trans hd.image.fits
  exact ⟨lt_offsetWidth (hd.iptr_high.trans i.len_fits), lt_pixelWidth hc hbytes⟩

/-! ### The packed cache word -/

theorem pack_toNat (p : Pixel) :
    p.pack.toNat = p.r.toNat * 2 ^ 24 + p.g.toNat * 2 ^ 16 + p.b.toNat * 2 ^ 8 + p.a.toNat := by
  have hg := p.g.isLt
  have hb := p.b.isLt
  have ha := p.a.isLt
  rw [Pixel.pack, BitVec.toNat_append, BitVec.toNat_append, BitVec.toNat_append,
    ← Nat.shiftLeft_add_eq_or_of_lt hg, ← Nat.shiftLeft_add_eq_or_of_lt hb, ← Nat.shiftLeft_add_eq_or_of_lt ha]
  simp only [Nat.shiftLeft_eq]
  ring

/-- A byte of a word by its place value. -/
theorem extract_byte_toNat (v : BitVec 32) (k : Nat) : (v.extractLsb' k 8).toNat = v.toNat / 2 ^ k % 256 := by
  rw [BitVec.extractLsb'_toNat, Nat.shiftRight_eq_div_pow]

theorem unpack_pack (p : Pixel) : Pixel.unpack p.pack = p := by
  have hword := pack_toNat p
  have hr := p.r.isLt
  have hg := p.g.isLt
  have hb := p.b.isLt
  have ha := p.a.isLt
  have hbyte : ∀ k, ∀ x : Byte, p.pack.toNat / 2 ^ k % 256 = x.toNat → p.pack.extractLsb' k 8 = x :=
    fun k x h => BitVec.eq_of_toNat_eq ((extract_byte_toNat _ k).trans h)
  have er : p.pack.extractLsb' 24 8 = p.r := hbyte 24 p.r (by omega)
  have eg : p.pack.extractLsb' 16 8 = p.g := hbyte 16 p.g (by omega)
  have eb : p.pack.extractLsb' 8 8 = p.b := hbyte 8 p.b (by omega)
  have ea : p.pack.extractLsb' 0 8 = p.a := hbyte 0 p.a (by omega)
  rw [Pixel.unpack, er, eg, eb, ea]

theorem pack_unpack (v : BitVec 32) : (Pixel.unpack v).pack = v := by
  apply BitVec.eq_of_toNat_eq
  have hv := v.isLt
  rw [pack_toNat]
  simp only [Pixel.unpack, extract_byte_toNat]
  omega

end Sys2Proof.Proofs
end

section
/-! PROOFS. The statements of 10_state.md: the host's reads, the observation, the widths and the packing. -/

namespace Sys2Proof.Proofs

open Sys2Proof.Machine Sys2Proof.Claims

/-- Settles O56: each read in the phases where its register means something, and the two code tables. -/
theorem hostReadsValidRegisters : Obligations.HostReadsValidRegisters := by
  refine fun n s => ⟨fun hp => ?image, fun hp => ⟨if_pos hp, ?kind⟩, ?phase⟩
  case image =>
    have hvalid : s.phase.imageValid = true := by rcases hp with hp | hp <;> rw [hp] <;> rfl
    exact ⟨if_pos hvalid, if_pos hvalid, if_pos hvalid, if_pos hvalid⟩
  case kind =>
    rw [hostReadErrKind, if_pos hp]
    cases s.errKind <;> rfl
  case phase =>
    rw [hostReadPhase]
    cases s.phase <;> rfl

/-- Settles O57: in DONE every byte of the result is written, so the host reads it and no free value. -/
theorem doneObservationIsTheImage : Obligations.DoneObservationIsTheImage := by
  refine fun n s i => ⟨fun hp => ?done, fun hp => observe_error hp n, fun hdone herror => ?none⟩
  case done =>
    obtain ⟨hd, hall⟩ := i.finished hp
    refine ⟨_, by rw [observe, hp], by rw [List.length_map, List.length_range, State.outSize], hd.image.channels,
      fun a ha => ?_⟩
    rw [List.length_map, List.length_range] at ha
    exact (observed_byte hp hd hall ha n).symm
  case none =>
    rw [observe]
    cases hp : s.phase with
    | idle | header | stream => rfl
    | done => exact absurd hp hdone
    | error => exact absurd hp herror

/-- Settles O58: L is at most P_IN_MAX, the offsets at most L, and OPIX at most W*H, whose bytes fit in OUT. -/
theorem cursorsFitTheirWidths : Obligations.CursorsFitTheirWidths := by
  refine fun s i => ⟨lt_offsetWidth i.len_fits, ?_, fun hp => lt_offsetWidth ((i.failed hp).2.trans i.len_fits)⟩
  rintro (hp | hp)
  · obtain ⟨hd, hlt⟩ := i.streaming hp
    exact cursors_fit i hd hlt.le
  · obtain ⟨hd, hall⟩ := i.finished hp
    exact cursors_fit i hd hall.le

/-- Settles O59: the word is the place-value sum of its bytes, and each byte is read back from its place. -/
theorem cacheWordPacking : Obligations.CacheWordPacking :=
  ⟨fun p => ⟨pack_toNat p, unpack_pack p⟩, pack_unpack⟩

end Sys2Proof.Proofs
end

section
/-! PROOFS. The statements on the host's commands. -/

namespace Sys2Proof.Proofs

open Sys2Proof.Machine Sys2Proof.Claims

/-- Settles O53: the step is ABORT, which writes PHASE alone. -/
theorem abortChangesOnlyPhase : Obligations.AbortChangesOnlyPhase :=
  fun _ _ hh => ⟨step_of_command hh, fun _ => rfl⟩

/-- Settles O55: each duty is one check of the command, in the order of the statement. -/
theorem hostDutiesAreEnforced : Obligations.HostDutiesAreEnforced := by
  refine fun s rest => ⟨fun off bs hh => ?place, fun len hh => ?start⟩
  all_goals rw [step_of_command hh, hostCommand]
  case place =>
    refine ⟨fun hbusy => if_pos hbusy, fun hheader hstream hexceeds => ?exceeds, fun hheader hstream hfit => ?placing⟩
    all_goals rw [if_neg (not_or.mpr ⟨hheader, hstream⟩)]
    case exceeds => exact if_pos hexceeds
    case placing =>
      exact ⟨_, if_neg (Nat.not_lt.mpr hfit), rfl, fun k hk => read_writeBytes_inside s.inMem off hk,
        fun a ha => Memory.read_writeBytes_outside s.inMem bs ha⟩
  case start =>
    refine ⟨fun hexceeds => if_pos hexceeds, fun hfit ⟨a, ha, hnone⟩ => ?_⟩
    have habsent : ¬ Memory.resident s.inMem len := fun hall => by
      have hread := hall a ha
      rw [hnone] at hread
      cases hread
    rw [if_neg (Nat.not_lt.mpr hfit), if_neg habsent]

end Sys2Proof.Proofs
end
